-- ==== Sys2Proof/Word.lean ====
section
/-! DEFINITION. The word types of the machine: the widths of spec/00_scope.md R4. -/

namespace Sys2Proof

/-- A data word: A, B, a payload, an immediate, a jump target, the pc (XLEN = PCW = 30, R4, R12, R14). -/
abbrev Word := BitVec 30

/-- The binary form of one memory slot (SLOTW = 44, R4, R65). -/
abbrev SlotWord := BitVec 44

/-- A legal slot address, 0 to 255 (AW = 8, R4, R30). -/
abbrev Addr := BitVec 8

/-- The code of a one-character identifier (SYMW = 8, R4, R56). -/
abbrev SymCode := BitVec 8

/-- One character of a program text or of a snapshot, as a byte (decision D6). -/
abbrev Byte := BitVec 8

/-- One line of text, without its line feed (R53). -/
abbrev Line := List Byte

end Sys2Proof
end

