-- ==== Sys2Proof/Syntax.lean ====
section
/-! DEFINITION. The abstract slot of spec/30_encoding.md R50: the eleven instructions, and the empty slot. -/

namespace Sys2Proof

/-- The eleven instructions, one constructor per row of spec/opcode_table.json, with the operands of R50. -/
inductive Instr where
  /-- DEC (DECLARE, R100): identifier, `declared` flag and payload of the slot. -/
  | dec (sym : SymCode) (declared : Bool) (val : Word)
  /-- LDA (LOAD_A, R110). -/
  | lda (sym : SymCode)
  /-- LDB (LOAD_B, R111). -/
  | ldb (sym : SymCode)
  /-- LDI (LOAD_IMMEDIATE, R112). -/
  | ldi (val : Word)
  /-- ST (STORE, R113). -/
  | st (sym : SymCode)
  /-- XCH (EXCHANGE, R114). -/
  | xch
  /-- JMP (JUMP, R120). -/
  | jmp (target : Word)
  /-- JZS (JUMP_IF_ZERO, R121). -/
  | jzs (target : Word)
  /-- JVS (JUMP_IF_OVERFLOW, R122). -/
  | jvs (target : Word)
  /-- ADD (ADD, R131). -/
  | add
  /-- HLT (HALT, R140). -/
  | hlt
  deriving DecidableEq, Repr

/-- One memory slot: empty, or one instruction (R18, R50, R51). -/
inductive Slot where
  /-- No instruction. -/
  | empty
  /-- An occupied slot. -/
  | instr (i : Instr)
  deriving DecidableEq, Repr

end Sys2Proof
end

