-- ==== Sys2Proof/WellFormed.lean ====
section
/-! DEFINITION. What an instruction must satisfy to stand in a machine that was loaded from text. The widths of the
operands are in their types, so every instruction has a slot word (R66); two things are left to check. -/

namespace Sys2Proof

/-- Space, horizontal tab and carriage return (R54). -/
def isBlank (c : Byte) : Bool := c == 32 || c == 9 || c == 13

/-- A character that can be an identifier of a program text: a blank ends a token (R54, R56) and a line feed ends the
line (R53). -/
def isNameChar (c : Byte) : Bool := !isBlank c && c != 10

namespace Instr

/-- The payload of a DEC slot that has not executed is 0 (R19, R22); no other instruction has anything to check. -/
def wf : Instr → Bool
  | .dec _ declared val => declared || val == 0
  | .lda _ => true
  | .ldb _ => true
  | .ldi _ => true
  | .st _ => true
  | .xch => true
  | .jmp _ => true
  | .jzs _ => true
  | .jvs _ => true
  | .add => true
  | .hlt => true

/-- Some line of a program text stands for this instruction (R56, R57, R60): a DEC slot as the load leaves it, and a
name that a line can hold. -/
def hasText : Instr → Bool
  | .dec sym declared val => isNameChar sym && !declared && val == 0
  | .lda sym => isNameChar sym
  | .ldb sym => isNameChar sym
  | .ldi _ => true
  | .st sym => isNameChar sym
  | .xch => true
  | .jmp _ => true
  | .jzs _ => true
  | .jvs _ => true
  | .add => true
  | .hlt => true

end Instr

end Sys2Proof
end

