-- ==== Sys2Proof/Decode.lean ====
section
/-! DEFINITION. The 44-bit slot word of spec/30_encoding.md section 4: its fields, the decoder, the encoder, and the
match and mask rows of spec/opcode_table.json. -/

namespace Sys2Proof

/-! ### The fields of a slot word (R65) -/

/-- OCC, bit 43: the slot is occupied. -/
def occF (w : SlotWord) : Bool := w.getLsbD 43

/-- OPC, bits 42:39: the opcode number. -/
def opcF (w : SlotWord) : BitVec 4 := w.extractLsb' 39 4

/-- DCL, bit 38: the `declared` flag of a DEC slot. -/
def dclF (w : SlotWord) : Bool := w.getLsbD 38

/-- SYM, bits 37:30: the identifier code. -/
def symF (w : SlotWord) : SymCode := w.extractLsb' 30 8

/-- VAL, bits 29:0: the payload, the immediate or the jump target (R67). -/
def valF (w : SlotWord) : Word := w.extractLsb' 0 30

/-- The slot word with the given fields, bit 43 first (R65). -/
def packSlot (occ : Bool) (opc : BitVec 4) (dcl : Bool) (sym : SymCode) (val : Word) : SlotWord :=
  BitVec.ofBool occ ++ opc ++ BitVec.ofBool dcl ++ sym ++ val

/-- `w` with its VAL field replaced, every other field kept (R35: MemWrite). -/
def withVal (w : SlotWord) (v : Word) : SlotWord := packSlot (occF w) (opcF w) (dclF w) (symF w) v

/-- `w` with its DCL field replaced, every other field kept (R36). -/
def withDcl (w : SlotWord) (d : Bool) : SlotWord := packSlot (occF w) (opcF w) d (symF w) (valF w)

/-! ### The decoder (R66 read right to left, R68) -/

/-- Why a slot word is illegal: the three kinds of R68. -/
inductive IllegalWord where
  /-- OCC = 0 and another bit is set. -/
  | unoccupiedNotZero
  /-- OCC = 1 and OPC is 11 to 15. -/
  | reservedOpcode
  /-- OCC = 1 and a field that must be zero is not. -/
  | nonzeroField
  deriving DecidableEq, Repr

/-- A row whose only free field is SYM: DCL and VAL must be 0 (R66). -/
def onlySym (w : SlotWord) (i : Instr) : Except IllegalWord Slot :=
  if dclF w = false ∧ valF w = 0 then .ok (.instr i) else .error .nonzeroField

/-- A row whose only free field is VAL: DCL and SYM must be 0 (R66). -/
def onlyVal (w : SlotWord) (i : Instr) : Except IllegalWord Slot :=
  if dclF w = false ∧ symF w = 0 then .ok (.instr i) else .error .nonzeroField

/-- A row with no free field: DCL, SYM and VAL must be 0 (R66). -/
def noField (w : SlotWord) (i : Instr) : Except IllegalWord Slot :=
  if dclF w = false ∧ symF w = 0 ∧ valF w = 0 then .ok (.instr i) else .error .nonzeroField

/-- The slot a word stands for, or why it is illegal (R66, R68). Total on every word. -/
def decodeSlot (w : SlotWord) : Except IllegalWord Slot :=
  if occF w = false then
    if w = 0 then .ok .empty else .error .unoccupiedNotZero
  else
    match (opcF w).toNat with
    | 0 => .ok (.instr (.dec (symF w) (dclF w) (valF w)))
    | 1 => onlySym w (.lda (symF w))
    | 2 => onlySym w (.ldb (symF w))
    | 3 => onlyVal w (.ldi (valF w))
    | 4 => onlySym w (.st (symF w))
    | 5 => noField w .xch
    | 6 => onlyVal w (.jmp (valF w))
    | 7 => onlyVal w (.jzs (valF w))
    | 8 => onlyVal w (.jvs (valF w))
    | 9 => noField w .add
    | 10 => noField w .hlt
    | _ => .error .reservedOpcode

/-- The instruction the decoder reads from bits numbered as spec/opcode_table.json numbers them. An instruction is one
44-bit slot word (R51, R65), whatever number of bits the caller counts; a slot has no bit above 43. Log entry 19. -/
def decodeTableWord (_nbits w : Nat) : Option Instr :=
  match decodeSlot (BitVec.ofNat 44 w) with
  | .ok (.instr i) => some i
  | .ok .empty => none
  | .error _ => none

/-! ### The encoder (R66 read left to right) -/

/-- The slot word of an instruction (R52, R66). -/
def encode : Instr → SlotWord
  | .dec sym declared val => packSlot true 0 declared sym val
  | .lda sym => packSlot true 1 false sym 0
  | .ldb sym => packSlot true 2 false sym 0
  | .ldi val => packSlot true 3 false 0 val
  | .st sym => packSlot true 4 false sym 0
  | .xch => packSlot true 5 false 0 0
  | .jmp target => packSlot true 6 false 0 target
  | .jzs target => packSlot true 7 false 0 target
  | .jvs target => packSlot true 8 false 0 target
  | .add => packSlot true 9 false 0 0
  | .hlt => packSlot true 10 false 0 0

/-- The slot word of a slot: the empty slot is the all-zero word (R66). -/
def encodeSlot : Slot → SlotWord
  | .empty => 0
  | .instr i => encode i

/-! ### The match and mask rows (R72) -/

/-- The opcode number of the instruction, column `opc` of R52 (decision D4). -/
def Instr.opcode : Instr → BitVec 4
  | .dec _ _ _ => 0
  | .lda _ => 1
  | .ldb _ => 2
  | .ldi _ => 3
  | .st _ => 4
  | .xch => 5
  | .jmp _ => 6
  | .jzs _ => 7
  | .jvs _ => 8
  | .add => 9
  | .hlt => 10

/-- The `match` of the instruction's row (R72). -/
def Instr.rowMatch : Instr → SlotWord
  | .dec _ _ _ => 0x80000000000#44
  | .lda _ => 0x88000000000#44
  | .ldb _ => 0x90000000000#44
  | .ldi _ => 0x98000000000#44
  | .st _ => 0xA0000000000#44
  | .xch => 0xA8000000000#44
  | .jmp _ => 0xB0000000000#44
  | .jzs _ => 0xB8000000000#44
  | .jvs _ => 0xC0000000000#44
  | .add => 0xC8000000000#44
  | .hlt => 0xD0000000000#44

/-- The `mask` of the instruction's row (R72). -/
def Instr.rowMask : Instr → SlotWord
  | .dec _ _ _ => 0xF8000000000#44
  | .lda _ => 0xFC03FFFFFFF#44
  | .ldb _ => 0xFC03FFFFFFF#44
  | .ldi _ => 0xFFFC0000000#44
  | .st _ => 0xFC03FFFFFFF#44
  | .xch => 0xFFFFFFFFFFF#44
  | .jmp _ => 0xFFFC0000000#44
  | .jzs _ => 0xFFFC0000000#44
  | .jvs _ => 0xFFFC0000000#44
  | .add => 0xFFFFFFFFFFF#44
  | .hlt => 0xFFFFFFFFFFF#44

/-- A word is a word of `i`'s row: it agrees with the row's match in every bit the row fixes (R72). -/
def matchesRow (w : SlotWord) (i : Instr) : Bool := w &&& i.rowMask == i.rowMatch

/-- A word is one of the legal slot words (R66). -/
def legalWord (w : SlotWord) : Bool :=
  match decodeSlot w with
  | .ok _ => true
  | .error _ => false

end Sys2Proof
end

