-- ==== Sys2Proof/Config.lean ====
section
/-! DEFINITION. The parameters of spec/00_scope.md R4, and the values that the spec leaves open. -/

namespace Sys2Proof.Config

/-- N, the number of memory slots (R4). -/
def nSlots : Nat := 256

/-- INT_MIN, the least data value (R4). -/
def intMin : Int := -536870912

/-- INT_MAX, the greatest data value (R4). -/
def intMax : Int := 536870911

/-- WRAP, what ADD subtracts or adds when it wraps (R4). -/
def wrap : Int := 1073741824

/-- RESET_A (R4, R24): the spec's decision D10. Log entry 6. -/
def resetA : Word := 0

/-- RESET_B (R4, R24): the spec's decision D10. Log entry 6. -/
def resetB : Word := 0

/-- MALFORMED_SYM (R4, R59): the code an identifier operand with a malformed text gets. OPEN in the spec, so it has no
body: nothing is known of its value. Log entry 7. -/
opaque malformedSym : SymCode

/-- MALFORMED_INT (R4, R59): the value an integer operand with a malformed text gets. OPEN in the spec, so it has no
body: nothing is known of its value. Log entry 7. -/
opaque malformedInt : Word

/-- What the snapshot prints for a slot word that is no legal slot word (R71 lists the legal slots only). Free value,
log entry 18. -/
opaque illegalRepr : SlotWord → Line

/-- Whether a run is served when `step_req` and `run_req` are raised in the same IDLE visit (R90, R91 do not say).
Free value, log entry 15. -/
opaque runWinsOverStep : Bool

end Sys2Proof.Config
end

