-- ==== Sys2Proof/Machine/State.lean ====
section
/-! DEFINITION. The state of the machine (spec/10_state.md), its faults and refusals, and its value at reset. -/

namespace Sys2Proof.Machine

/-- The five results of a step (R150). -/
inductive StepResult where
  /-- Code 0: an instruction was executed. -/
  | executed
  /-- Code 1, normal stop: the slot at the pc holds HLT (R151). -/
  | stopHalt
  /-- Code 2, normal stop: the slot at the pc is empty (R152). -/
  | stopEmpty
  /-- Code 3, fault: the pc is outside 0..255 (R153). -/
  | faultPcRange
  /-- Code 4, fault: the word at the pc is no legal slot word (R154). -/
  | faultIllegalSlot
  deriving DecidableEq, Repr

/-- What the output ports `result` and `diag_unbound` show of one step that gave a next state (R90, R150, R155). -/
structure StepReport where
  /-- The result of the step. -/
  result : StepResult
  /-- The step executed LDA, LDB or ST on an unbound name. -/
  diagUnbound : Bool
  deriving DecidableEq, Repr

/-- The memory: (slot address, slot word) pairs, addresses strictly rising, no pair whose word is what an unlisted
address reads as (`Memory.wf`). The unit is the slot word, since the machine has no bytes (R32). Log entry 1. -/
abbrev Memory := List (Nat × SlotWord)

/-- The symbol table: (identifier code, slot address) pairs, codes strictly rising; an unlisted code is unbound (R20). -/
abbrev SymbolTable := List (Nat × Addr)

/-- The state of the machine: the five things of R10, and the model's own `report`. -/
structure State where
  /-- Accumulator A (R11). -/
  a : Word
  /-- Accumulator B (R11). -/
  b : Word
  /-- The zero flag Z (R15). -/
  z : Bool
  /-- The overflow flag V (R16). -/
  v : Bool
  /-- The program counter (R13, R14). -/
  pc : Word
  /-- The 256 memory slots (R18, R19). -/
  mem : Memory
  /-- The symbol table (R20). -/
  sym : SymbolTable
  /-- THE MODEL'S OWN FIELD, an output and no state of the spec: what the `result` and `diag_unbound` ports showed for
  the last completed step, none before the first. No rule reads it (R82, R150, R155). Log entry 5. -/
  report : Option StepReport
  deriving DecidableEq, Repr

/-- The faults of R150. The spec's two faults and no other. -/
inductive Fault where
  /-- Fault(PC_RANGE), R153: raised by `step` when the pc is outside 0..255. Safe: the spec makes it a fault (decision
  D9). Also answered by DEC's own-slot write when `exec` is called directly at such a pc, which `step` never does
  (log entry 9). -/
  | pcRange
  /-- Fault(ILLEGAL_SLOT), R154: raised by `step` when the fetched word is no legal slot word. Safe: the spec makes it
  a fault (decision D5). -/
  | illegalSlot
  deriving DecidableEq, Repr

/-- What the model gives no next state and no fault. -/
inductive Refusal where
  /-- Raised by an arm of `exec` whose instruction has no meaning yet; no arm of this model does. Safe. -/
  | notModelled (mnemonic : String)
  /-- Raised by the loader alone: the program text holds a decimal literal outside the 30-bit range, so it has no
  memory image and the loader refuses it (R58, decision D2). Safe. -/
  | literalRange
  deriving DecidableEq, Repr

/-- The machine at reset and at power-on: every field at the value of R24, nothing loaded (R171). -/
def State.reset : State :=
  { a := Config.resetA, b := Config.resetB, z := false, v := false, pc := 0, mem := [], sym := [], report := none }

end Sys2Proof.Machine
end

