-- ==== Sys2Proof/Machine/Store.lean ====
section
/-! DEFINITION. The operations over the two sparse tables of the state: memory (R18, R33 to R36) and the symbol table
(R20). Both are association lists with strictly rising keys. -/

namespace Sys2Proof.Machine

/-! ### Association lists -/

/-- The value at key `k`. -/
def Store.find {α : Type} (k : Nat) : List (Nat × α) → Option α
  | [] => none
  | (j, x) :: rest => if j = k then some x else Store.find k rest

/-- The table with key `k` holding `x`, keys kept in rising order. -/
def Store.put {α : Type} (k : Nat) (x : α) : List (Nat × α) → List (Nat × α)
  | [] => [(k, x)]
  | (j, y) :: rest =>
    if k < j then (k, x) :: (j, y) :: rest
    else if j = k then (k, x) :: rest
    else (j, y) :: Store.put k x rest

/-- The table without key `k`. -/
def Store.erase {α : Type} (k : Nat) : List (Nat × α) → List (Nat × α)
  | [] => []
  | (j, y) :: rest => if j = k then Store.erase k rest else (j, y) :: Store.erase k rest

/-- The keys rise strictly, from `lo` on. -/
def Store.rising {α : Type} (lo : Nat) : List (Nat × α) → Bool
  | [] => true
  | (j, _) :: rest => decide (lo ≤ j) && Store.rising (j + 1) rest

/-! ### Memory -/

/-- What an address that is not listed reads as: the all-zero word, which is the empty slot (R24, R66). -/
def Memory.unlisted : SlotWord := 0

/-- The canonical form: addresses strictly rising and below 256, no word that an unlisted address reads as. -/
def Memory.wf (m : Memory) : Bool :=
  Store.rising 0 m && m.all fun e => decide (e.1 < Config.nSlots) && e.2 != Memory.unlisted

/-- The whole slot word at address `p` (R33). -/
def Memory.read (m : Memory) (p : Addr) : SlotWord := (Store.find p.toNat m).getD Memory.unlisted

/-- The memory with slot word `w` at address `p`. Writing the empty word unlists the address. -/
def Memory.write (m : Memory) (p : Addr) (w : SlotWord) : Memory :=
  if w = Memory.unlisted then Store.erase p.toNat m else Store.put p.toNat w m

/-! ### The symbol table -/

/-- The canonical form: codes strictly rising and below 256. -/
def SymbolTable.wf (t : SymbolTable) : Bool :=
  Store.rising 0 t && t.all fun e => decide (e.1 < 256)

/-- `sym[c]`: the bound address, or none where the name is unbound (R20). -/
def SymbolTable.lookup (t : SymbolTable) (c : SymCode) : Option Addr := Store.find c.toNat t

/-- `sym[c] <- bound(p)` (R20, R100, R101). -/
def SymbolTable.bind (t : SymbolTable) (c : SymCode) (p : Addr) : SymbolTable := Store.put c.toNat p t

end Sys2Proof.Machine
end

