-- ==== Sys2Proof/Machine/Ops.lean ====
section
/-! DEFINITION. The named operations every instruction and the step are made of: the pc, the accesses to memory, the
result of a step, and the ways a step ends. -/

namespace Sys2Proof.Machine

/-! ### The program counter (R13, R14, R84) -/

/-- The slot address a pc names, if it is in 0..255 (R14, R80). -/
def slotAddr (pc : Word) : Option Addr :=
  if pc.toInt < 0 ∨ 255 < pc.toInt then none else some (BitVec.ofNat 8 pc.toNat)

/-- `pc <- p + 1` (R84). -/
def State.advance (s : State) : State := { s with pc := s.pc + 1 }

/-- `pc <- d`: no bounds check, no scaling, no increment (R84, R123). -/
def State.jump (s : State) (d : Word) : State := { s with pc := d }

/-! ### The accumulators (R11) -/

/-- `A <- x`. -/
def State.setA (s : State) (x : Word) : State := { s with a := x }

/-- `B <- x`. -/
def State.setB (s : State) (x : Word) : State := { s with b := x }

/-! ### The accesses to memory (R33 to R37) -/

/-- MemRead(p, 30): the payload field of the slot at `p` (R34). Log entry 10. -/
def State.memRead (s : State) (p : Addr) : Word := valF (s.mem.read p)

/-- MemWrite(p, 30, x): the payload field of the slot at `p`; no other field and no other slot changes (R35).
Log entry 10. -/
def State.memWrite (s : State) (p : Addr) (x : Word) : State :=
  { s with mem := s.mem.write p (withVal (s.mem.read p) x) }

/-- DEC's write to its own slot: `declared <- 1` and `val <- 0` together (R36, R100). -/
def State.declareOwn (s : State) (p : Addr) : State :=
  { s with mem := s.mem.write p (withVal (withDcl (s.mem.read p) true) 0) }

/-- `sym[c] <- bound(p)` (R20, R100). -/
def State.bindName (s : State) (c : SymCode) (p : Addr) : State := { s with sym := s.sym.bind c p }

/-! ### How a step ends (R80 to R82, R150 to R155, R158)

There is no trap entry and no return from one: a step that does not execute saves nothing, switches nothing and goes
nowhere (R158, R159). The one shared operation for it is `State.stop`. -/

/-- The step executed an instruction; `diag` is the `diag_unbound` output (R150, R155). -/
def State.retire (s : State) (diag : Bool) : State := { s with report := some ⟨.executed, diag⟩ }

/-- The step stopped: nothing of the machine changes, only the output is shown (R82, R151, R152, R158). -/
def State.stop (s : State) (r : StepResult) : State := { s with report := some ⟨r, false⟩ }

/-- The code on the `result` port (R150). -/
def StepResult.code : StepResult → BitVec 3
  | .executed => 0
  | .stopHalt => 1
  | .stopEmpty => 2
  | .faultPcRange => 3
  | .faultIllegalSlot => 4

/-- The document's boolean: true for `Executed` alone (R80, R150). -/
def StepResult.asBool : StepResult → Bool
  | .executed => true
  | .stopHalt => false
  | .stopEmpty => false
  | .faultPcRange => false
  | .faultIllegalSlot => false

/-- A normal stop, as against a fault (R89, R150). -/
def StepResult.isStop : StepResult → Bool
  | .executed => false
  | .stopHalt => true
  | .stopEmpty => true
  | .faultPcRange => false
  | .faultIllegalSlot => false

/-- The result a fault stands for (R150). -/
def Fault.result : Fault → StepResult
  | .pcRange => .faultPcRange
  | .illegalSlot => .faultIllegalSlot

/-- The report a step's outcome shows on the ports: the next state's, or that of the fault, whose `diag_unbound` is 0
(R90, R150, R155). A refusal shows none; no step refuses. -/
def reportOf : Host.Outcome State Fault Refusal → Option StepReport
  | .next t => t.report
  | .fault f => some ⟨f.result, false⟩
  | .refused _ => none

/-- The state after a step's outcome, from the state before it: a fault changes nothing (R82). -/
def stateAfter (s : State) : Host.Outcome State Fault Refusal → State
  | .next t => t
  | .fault _ => s
  | .refused _ => s

/-! ### The fetch (R33, R80, R81) -/

/-- What the fetch stage finds. -/
inductive Fetched where
  /-- The step faults. -/
  | fault (f : Fault)
  /-- The slot is empty. -/
  | empty
  /-- The slot holds an instruction. -/
  | instr (i : Instr)
  deriving DecidableEq, Repr

/-- The checks of R80 in the order of R81: the range of the pc, the legality of the word, the empty slot. -/
def State.fetch (s : State) : Fetched :=
  match slotAddr s.pc with
  | none => .fault .pcRange
  | some p =>
    match decodeSlot (s.mem.read p) with
    | .error _ => .fault .illegalSlot
    | .ok .empty => .empty
    | .ok (.instr i) => .instr i

/-- The state with the bits `w` stored as the slot word the next step fetches (R65, R83); nothing where the pc names no
slot. -/
def State.storeAtPc (s : State) (w : Nat) : State :=
  match slotAddr s.pc with
  | none => s
  | some p => { s with mem := s.mem.write p (BitVec.ofNat 44 w) }

end Sys2Proof.Machine
end

