-- ==== Sys2Proof/Machine/Flags.lean ====
section
/-! DEFINITION. The ALU: the one addition, with the zero flag and the overflow flag (spec/44_arithmetic.md). -/

namespace Sys2Proof.Machine

/-- `wrap30`: the value and the overflow of an exact sum; it wraps once (R130). -/
def wrap30 (t : Int) : Int × Bool :=
  if Config.intMax < t then (t - Config.wrap, true)
  else if t < Config.intMin then (t + Config.wrap, true)
  else (t, false)

/-- The result of the ALU. -/
structure AluResult where
  /-- The new value of A. -/
  sum : Word
  /-- The new value of Z. -/
  zero : Bool
  /-- The new value of V. -/
  overflow : Bool
  deriving DecidableEq, Repr

/-- ADD on signed values: the exact sum, wrapped once; Z is taken from the wrapped sum (R131). -/
def aluAdd (a b : Word) : AluResult :=
  let r := wrap30 (a.toInt + b.toInt)
  { sum := BitVec.ofInt 30 r.1, zero := decide (r.1 = 0), overflow := r.2 }

/-- The same addition as a hardware adder: 30 bits, the carry out dropped; V when two operands of one sign give a
result of the other; Z when the sum is 0 (R132). -/
def adder30 (a b : Word) : AluResult :=
  { sum := a + b
    zero := a + b == 0
    overflow := a.getLsbD 29 == b.getLsbD 29 && (a + b).getLsbD 29 != a.getLsbD 29 }

/-- The state with the result of the ALU in A, Z and V (R131). -/
def State.setAlu (s : State) (r : AluResult) : State := { s with a := r.sum, z := r.zero, v := r.overflow }

end Sys2Proof.Machine
end

