-- ==== Sys2Proof/Machine/Arithmetic.lean ====
section
/-! DEFINITION. The arithmetic family (spec/44_arithmetic.md): ADD. -/

namespace Sys2Proof.Machine

/-- ADD (R131). -/
def execAdd (s : State) : Host.Outcome State Fault Refusal :=
  .next (((s.setAlu (aluAdd s.a s.b)).advance).retire false)

end Sys2Proof.Machine
end

