-- ==== Sys2Proof/Machine/Operands.lean ====
section
/-! DEFINITION. The operand forms: symbol-indirect data (LDA, LDB, ST), the immediate (LDI) and the absolute target
(JMP, JZS, JVS), which are used as they stand (R67). -/

namespace Sys2Proof.Machine

/-- Symbol-indirect addressing: the slot address the name is bound to, none where it is unbound (spec/42_load_store.md). -/
def State.cell (s : State) (c : SymCode) : Option Addr := s.sym.lookup c

/-- The immediate of LDI, `signed(w[29:0])` (R67, R112). -/
def immediate (val : Word) : Word := val

/-- The target of a jump: absolute, not scaled, possibly negative or above 255 (R67, R123). -/
def target (val : Word) : Word := val

end Sys2Proof.Machine
end

