-- ==== Sys2Proof/Machine/Declare.lean ====
section
/-! DEFINITION. The data declaration family (spec/41_data_declaration.md): DEC. -/

namespace Sys2Proof.Machine

/-- DEC (R100, R101). On its first execution the slot at the pc binds its name to its own address, replacing any earlier
binding, sets its `declared` flag and zeroes its payload; a later execution only advances the pc. The step has checked
that the pc is in 0..255 (log entry 9). -/
def execDec (sym : SymCode) (declared : Bool) (_val : Word) (s : State) : Host.Outcome State Fault Refusal :=
  if declared then .next (s.advance.retire false)
  else
    match slotAddr s.pc with
    | none => .fault .pcRange
    | some p => .next ((((s.bindName sym p).declareOwn p).advance).retire false)

end Sys2Proof.Machine
end

