-- ==== Sys2Proof/Machine/Halt.lean ====
section
/-! DEFINITION. The halt family (spec/45_halt.md): HLT. -/

namespace Sys2Proof.Machine

/-- HLT (R140): the step reports Stop(HALT) and writes nothing, not even the pc. A normal stop, so a next state. Log
entry 4. -/
def execHlt (s : State) : Host.Outcome State Fault Refusal := .next (s.stop .stopHalt)

end Sys2Proof.Machine
end

