-- ==== Sys2Proof/Machine/Jump.lean ====
section
/-! DEFINITION. The jump family (spec/43_jump.md): JMP, JZS, JVS. None checks its target (R123). -/

namespace Sys2Proof.Machine

/-- JMP (R120). -/
def execJmp (d : Word) (s : State) : Host.Outcome State Fault Refusal :=
  .next ((s.jump (target d)).retire false)

/-- JZS (R121). -/
def execJzs (d : Word) (s : State) : Host.Outcome State Fault Refusal :=
  .next ((if s.z then s.jump (target d) else s.advance).retire false)

/-- JVS (R122). -/
def execJvs (d : Word) (s : State) : Host.Outcome State Fault Refusal :=
  .next ((if s.v then s.jump (target d) else s.advance).retire false)

end Sys2Proof.Machine
end

