-- ==== Sys2Proof/Machine/LoadStore.lean ====
section
/-! DEFINITION. The load and store family (spec/42_load_store.md): LDA, LDB, LDI, ST, XCH. An unbound name is a silent
no-op that only `diag_unbound` shows (R110, R111, R113, R155). -/

namespace Sys2Proof.Machine

/-- LDA (R110). -/
def execLda (sym : SymCode) (s : State) : Host.Outcome State Fault Refusal :=
  match s.cell sym with
  | some p => .next (((s.setA (s.memRead p)).advance).retire false)
  | none => .next (s.advance.retire true)

/-- LDB (R111). -/
def execLdb (sym : SymCode) (s : State) : Host.Outcome State Fault Refusal :=
  match s.cell sym with
  | some p => .next (((s.setB (s.memRead p)).advance).retire false)
  | none => .next (s.advance.retire true)

/-- LDI (R112). -/
def execLdi (val : Word) (s : State) : Host.Outcome State Fault Refusal :=
  .next (((s.setA (immediate val)).advance).retire false)

/-- ST (R113). -/
def execSt (sym : SymCode) (s : State) : Host.Outcome State Fault Refusal :=
  match s.cell sym with
  | some p => .next (((s.memWrite p s.a).advance).retire false)
  | none => .next (s.advance.retire true)

/-- XCH (R114): both right-hand sides are the values before the step. -/
def execXch (s : State) : Host.Outcome State Fault Refusal :=
  .next ((((s.setA s.b).setB s.a).advance).retire false)

end Sys2Proof.Machine
end

