-- ==== Sys2Proof/Machine/Dispatch.lean ====
section
/-! DEFINITION. The dispatch: one arm per instruction, one meaning per arm. -/

namespace Sys2Proof.Machine

def exec (i : Instr) (s : State) : Host.Outcome State Fault Refusal :=
  match i with
  | .dec sym declared val => Sys2Proof.Machine.execDec sym declared val s
  | .lda sym => Sys2Proof.Machine.execLda sym s
  | .ldb sym => Sys2Proof.Machine.execLdb sym s
  | .ldi val => Sys2Proof.Machine.execLdi val s
  | .st sym => Sys2Proof.Machine.execSt sym s
  | .xch => Sys2Proof.Machine.execXch s
  | .jmp d => Sys2Proof.Machine.execJmp d s
  | .jzs d => Sys2Proof.Machine.execJzs d s
  | .jvs d => Sys2Proof.Machine.execJvs d s
  | .add => Sys2Proof.Machine.execAdd s
  | .hlt => Sys2Proof.Machine.execHlt s

end Sys2Proof.Machine
end

