-- ==== Sys2Proof/Machine/Step.lean ====
section
/-! DEFINITION. The step (spec/40_fetch_execute.md R80), and placing an instruction where it fetches. -/

namespace Sys2Proof.Machine

/-- One step: the checks of the fetch, then the instruction's own meaning (R80, R81, R83). HLT's meaning is its stop
(R140). -/
def step (s : State) : Host.Outcome State Fault Refusal :=
  match s.fetch with
  | .fault f => .fault f
  | .empty => .next (s.stop .stopEmpty)
  | .instr i => exec i s

/-- The state with the instruction's bits stored as the slot word at the pc. It stands for a load of that word from
outside the machine (log entry 3). -/
def State.withFetchWord (s : State) (_nbits w : Nat) : State := s.storeAtPc w

end Sys2Proof.Machine
end

