-- ==== Sys2Proof/Machine/Loader.lean ====
section
/-! DEFINITION. The program text, the loader and the load, which is the machine's reset (spec/30_encoding.md R53 to R64,
spec/70_reset_and_hazards.md R170). -/

namespace Sys2Proof.Machine

/-! ### Lines and tokens -/

/-- The bytes of an ASCII string. -/
def ascii (s : String) : List Byte := s.toList.map fun c => BitVec.ofNat 8 c.toNat

/-- The lines of a text, separated by line feeds; `cur` is the line begun, in reverse (R53). -/
def splitLines (cur : Line) : List Byte → List Line
  | [] => [cur.reverse]
  | c :: rest => if c = 10 then cur.reverse :: splitLines [] rest else splitLines (c :: cur) rest

/-- The tokens of a line, maximal runs of characters that are not blank; `cur` is the token begun, in reverse (R54). -/
def tokensFrom (cur : List Byte) : Line → List (List Byte)
  | [] => if cur.isEmpty then [] else [cur.reverse]
  | c :: rest =>
    if isBlank c then
      if cur.isEmpty then tokensFrom [] rest else cur.reverse :: tokensFrom [] rest
    else tokensFrom (c :: cur) rest

/-- The tokens of a line (R54). -/
def tokens (line : Line) : List (List Byte) := tokensFrom [] line

/-! ### Operands -/

/-- The value of a decimal digit (R57). -/
def digitValue (c : Byte) : Option Nat := if 48 ≤ c.toNat ∧ c.toNat ≤ 57 then some (c.toNat - 48) else none

/-- The value of a run of digits, `acc` being the value of those read before; none where a character is no digit. -/
def digitsFrom (acc : Nat) : List Byte → Option Nat
  | [] => some acc
  | c :: rest =>
    match digitValue c with
    | some d => digitsFrom (10 * acc + d) rest
    | none => none

/-- One or more digits (R57). -/
def natToken : List Byte → Option Nat
  | [] => none
  | c :: rest => digitsFrom 0 (c :: rest)

/-- The value of a run of digits with its sign. -/
def signedToken (negative : Bool) (digits : List Byte) : Option Int :=
  match natToken digits with
  | some n => if negative then some (-Int.ofNat n) else some (Int.ofNat n)
  | none => none

/-- A decimal integer: an optional `-` or `+`, then one or more digits, and nothing else (R57). -/
def intToken : List Byte → Option Int
  | [] => none
  | c :: rest =>
    if c = 45 then signedToken true rest
    else if c = 43 then signedToken false rest
    else signedToken false (c :: rest)

/-- The identifier operand: a token of one character; anything else is malformed (R56, R59). -/
def symOperand : Option (List Byte) → SymCode
  | some [c] => c
  | _ => Config.malformedSym

/-- The integer operand: a decimal integer of the 30-bit range; a well-formed one outside it refuses the text (R58),
anything else is malformed (R57, R59). -/
def intOperand (tok : Option (List Byte)) : Except Refusal Word :=
  match tok.bind intToken with
  | some n => if Config.intMin ≤ n ∧ n ≤ Config.intMax then .ok (BitVec.ofInt 30 n) else .error .literalRange
  | none => .ok Config.malformedInt

/-- A line whose operand is an integer (R57 to R60). -/
def withInt (tok : Option (List Byte)) (mk : Word → Instr) : Except Refusal Slot :=
  match intOperand tok with
  | .ok x => .ok (.instr (mk x))
  | .error r => .error r

/-! ### One line -/

/-- The slot of a line from its first token and its second: exact, case-sensitive keywords; a line with no recognised
keyword is an empty slot (R55, R60). -/
def slotOfTokens (keyword : List Byte) (operand : Option (List Byte)) : Except Refusal Slot :=
  if keyword = ascii "DEC" then .ok (.instr (.dec (symOperand operand) false 0))
  else if keyword = ascii "LDA" then .ok (.instr (.lda (symOperand operand)))
  else if keyword = ascii "LDB" then .ok (.instr (.ldb (symOperand operand)))
  else if keyword = ascii "LDI" then withInt operand .ldi
  else if keyword = ascii "ST" then .ok (.instr (.st (symOperand operand)))
  else if keyword = ascii "XCH" then .ok (.instr .xch)
  else if keyword = ascii "JMP" then withInt operand .jmp
  else if keyword = ascii "JZS" then withInt operand .jzs
  else if keyword = ascii "JVS" then withInt operand .jvs
  else if keyword = ascii "ADD" then .ok (.instr .add)
  else if keyword = ascii "HLT" then .ok (.instr .hlt)
  else .ok .empty

/-- The slot a line of the program text stands for, or the loader's refusal (R54 to R60). -/
def loadLine (line : Line) : Except Refusal Slot :=
  match tokens line with
  | [] => .ok .empty
  | keyword :: rest => slotOfTokens keyword rest.head?

/-- The slots of the lines in order, refused at the first line that is (R58, R61). -/
def assemble : List Line → Except Refusal (List Slot)
  | [] => .ok []
  | line :: rest =>
    match loadLine line, assemble rest with
    | .ok slot, .ok slots => .ok (slot :: slots)
    | .error r, _ => .error r
    | .ok _, .error r => .error r

/-! ### The load (R61, R170) -/

/-- The slots placed at successive addresses from `p` on (R61). -/
def Memory.fill (m : Memory) (p : Nat) : List Slot → Memory
  | [] => m
  | slot :: rest => Memory.fill (m.write (BitVec.ofNat 8 p) (encodeSlot slot)) (p + 1) rest

/-- Every slot empty (R170, action 1). -/
def State.clearMemory (s : State) : State := { s with mem := [] }

/-- Every name unbound (R170, action 2). -/
def State.clearSymbols (s : State) : State := { s with sym := [] }

/-- The registers, the flags and the pc at their reset values (R170, action 3); no step has completed since. -/
def State.clearRegisters (s : State) : State :=
  { s with a := Config.resetA, b := Config.resetB, pc := 0, z := false, v := false, report := none }

/-- The state with everything cleared, whatever it was (R170, actions 1 to 3). -/
def State.clear (s : State) : State := s.clearMemory.clearSymbols.clearRegisters

/-- The load of a list of lines, in any state: clear all, then fill memory from the first 256 lines; later lines have no
effect (R61, R170). -/
def State.load (s : State) (lines : List Line) : Host.Outcome State Fault Refusal :=
  match assemble (lines.take Config.nSlots) with
  | .ok slots => .next { s.clear with mem := s.clear.mem.fill 0 slots }
  | .error r => .refused r

/-- The load of a program text (R53, R170). -/
def State.loadText (s : State) (text : List Byte) : Host.Outcome State Fault Refusal := s.load (splitLines [] text)

/-- The load of a source that may not be readable: one that is not is an empty program (R63, R155). -/
def State.loadSource (s : State) (source : Option (List Line)) : Host.Outcome State Fault Refusal :=
  s.load (source.getD [])

/-! ### The load port (R90) -/

/-- One word written through the load port: `mem[ld_addr] <- ld_data` (R90). The core does not check it (R68). -/
def State.loadPortWrite (s : State) (addr : Addr) (word : SlotWord) : State :=
  { s with mem := s.mem.write addr word }

end Sys2Proof.Machine
end

