-- ==== Sys2Proof/Machine/Run.lean ====
section
/-! DEFINITION. Run to completion (spec/40_fetch_execute.md R86, R87). A run may not end, so it is given by its first
`fuel` steps. -/

namespace Sys2Proof.Machine

/-- How a run ended: the report of its last step, which did not execute, and the state it left. -/
structure RunEnd where
  /-- The report of the last step; a run never ends in one without a report. -/
  report : Option StepReport
  /-- The state after the last executed step; its `report` field shows a normal stop. -/
  state : State
  deriving DecidableEq, Repr

/-- The step's outcome is `Executed` (R80, R150). -/
def executed (o : Host.Outcome State Fault Refusal) : Bool :=
  match reportOf o with
  | some r => r.result.asBool
  | none => false

/-- Steps until one does not execute, at most `fuel` of them; none where the last of them still executed (R86). -/
def runFor : Nat → State → Option RunEnd
  | 0, _ => none
  | fuel + 1, s =>
    if executed (step s) then runFor fuel (stateAfter s (step s))
    else some ⟨reportOf (step s), stateAfter s (step s)⟩

/-- `run` from `s` ends as `e` (R86). -/
def RunsTo (s : State) (e : RunEnd) : Prop := ∃ fuel, runFor fuel s = some e

/-- `run` from `s` does not end (R87). -/
def RunsForever (s : State) : Prop := ∀ fuel, runFor fuel s = none

end Sys2Proof.Machine
end

