-- ==== Sys2Proof/Machine/Control.lean ====
section
/-! DEFINITION. The hardware view: the ports of spec/40_fetch_execute.md R90 and the control state machine of R91. One
visit of a control state takes one clock edge here; the spec fixes no number of cycles (R182). Log entry 14. -/

namespace Sys2Proof.Machine

/-- The control states of R91; FETCH and EXECUTE know whether the request they serve is a run, and EXECUTE holds the
instruction that FETCH decoded, which does not survive the step. None is architectural state, so none stands in
`State`. -/
inductive Control where
  /-- Held while `load` is high. -/
  | load
  /-- Waiting for a request. -/
  | idle
  /-- The range check, the fetch, the decoding, the tests for a stop and a fault. -/
  | fetch (run : Bool)
  /-- The instruction's own rule. -/
  | execute (run : Bool) (i : Instr)
  deriving DecidableEq, Repr

/-- The input ports of R90 beside the clock. -/
structure PortsIn where
  /-- `load`. -/
  load : Bool
  /-- `ld_we`. -/
  ldWe : Bool
  /-- `ld_addr`. -/
  ldAddr : Addr
  /-- `ld_data`. -/
  ldData : SlotWord
  /-- `step_req`. -/
  stepReq : Bool
  /-- `run_req`. -/
  runReq : Bool
  /-- `obs_addr`. -/
  obsAddr : Addr
  deriving DecidableEq, Repr

/-- The output ports of R90. `result` and `diag_unbound` are valid with `done` only, so the three are one field. -/
structure PortsOut where
  /-- `done`, with `result` and `diag_unbound` while it is 1. -/
  done : Option (BitVec 3 × Bool)
  /-- `a`. -/
  a : Word
  /-- `b`. -/
  b : Word
  /-- `pc`. -/
  pc : Word
  /-- `z`. -/
  z : Bool
  /-- `v`. -/
  v : Bool
  /-- `obs_data`. -/
  obsData : SlotWord
  deriving DecidableEq, Repr

/-- The chip: the core and its control state. -/
structure Chip where
  /-- The architectural state. -/
  core : State
  /-- The control state. -/
  ctl : Control
  deriving DecidableEq, Repr

/-- Power-on asserts `load` with no slot written (R90, R171). -/
def Chip.powerOn : Chip := { core := State.reset, ctl := .load }

/-- The chip while `load` is high: the registers, the flags and the symbol table in reset, and at most one word written
through the load port (R90). -/
def Chip.loading (s : State) (i : PortsIn) : Chip :=
  { core := if i.ldWe then s.clearSymbols.clearRegisters.loadPortWrite i.ldAddr i.ldData
      else s.clearSymbols.clearRegisters
    ctl := .load }

/-- A step finished: back to IDLE with its result on the ports (R90, R91). -/
def Chip.finish (s : State) (o : Host.Outcome State Fault Refusal) : Chip × Option (BitVec 3 × Bool) :=
  ({ core := stateAfter s o, ctl := .idle }, (reportOf o).map fun r => (r.result.code, r.diagUnbound))

/-- The request that IDLE takes up; both at once is a free choice (log entry 15). DESIGN CHOICE (log entry 21): R90 and
R91 do not say whether a request is a level or an edge of its port; here it is a level, read at every IDLE edge where
`load` is low, so a port still high when the core is back in IDLE is a new request. -/
def requested (i : PortsIn) : Control :=
  if i.stepReq && i.runReq then .fetch Config.runWinsOverStep
  else if i.stepReq then .fetch false
  else if i.runReq then .fetch true
  else .idle

/-- One clock edge: the next chip, and the `done` pulse with its result (R91). `load` is sampled in LOAD, in IDLE and at
the FETCH of each step of a run. -/
def Chip.edge (c : Chip) (i : PortsIn) : Chip × Option (BitVec 3 × Bool) :=
  match c.ctl with
  | .load => if i.load then (Chip.loading c.core i, none) else ({ c with ctl := .idle }, none)
  | .idle => if i.load then (Chip.loading c.core.clearMemory i, none) else ({ c with ctl := requested i }, none)
  | .fetch run =>
    if run && i.load then (Chip.loading c.core.clearMemory i, none)
    else
      match c.core.fetch with
      | .fault f => Chip.finish c.core (.fault f)
      | .empty => Chip.finish c.core (.next (c.core.stop .stopEmpty))
      | .instr .hlt => Chip.finish c.core (exec .hlt c.core)
      | .instr j => ({ c with ctl := .execute run j }, none)
  | .execute run j =>
    if run && executed (exec j c.core) then ({ core := stateAfter c.core (exec j c.core), ctl := .fetch true }, none)
    else Chip.finish c.core (exec j c.core)

/-- One clock edge with every output port: those of the state show the chip after the edge (R90). -/
def Chip.clock (c : Chip) (i : PortsIn) : Chip × PortsOut :=
  let r := c.edge i
  (r.1, { done := r.2, a := r.1.core.a, b := r.1.core.b, pc := r.1.core.pc, z := r.1.core.z, v := r.1.core.v,
          obsData := r.1.core.mem.read i.obsAddr })

/-- The chip after a list of clock edges, and the `done` pulses on the way, in order. -/
def Chip.clocks (c : Chip) : List PortsIn → Chip × List (BitVec 3 × Bool)
  | [] => (c, [])
  | i :: rest =>
    let r := c.edge i
    let q := r.1.clocks rest
    (q.1, r.2.toList ++ q.2)

end Sys2Proof.Machine
end

