-- ==== Sys2Proof/Machine/Snapshot.lean ====
section
/-! DEFINITION. The snapshot, the text the host sees of the state (spec/30_encoding.md R70, R71), as bytes. -/

namespace Sys2Proof.Machine

/-- The decimal digits of `n`, at most `fuel` of them, no leading zero. -/
def digits : Nat → Nat → List Byte
  | 0, _ => []
  | fuel + 1, n =>
    if n < 10 then [BitVec.ofNat 8 (48 + n)] else digits fuel (n / 10) ++ [BitVec.ofNat 8 (48 + n % 10)]

/-- A natural number below 10^10 in decimal: the absolute value of a 30-bit value and an address are (R70). -/
def decimalNat (n : Nat) : List Byte := digits 10 n

/-- A signed value in decimal: a leading `-` for a negative one, no sign otherwise (R70). -/
def decimal (i : Int) : List Byte := if i < 0 then 45 :: decimalNat i.natAbs else decimalNat i.natAbs

/-- A flag bit as `0` or `1` (R70). -/
def flagText (f : Bool) : List Byte := if f then ascii "1" else ascii "0"

/-- The text of an instruction in its slot; a DEC slot's form follows its `declared` flag alone (R71). -/
def instrText : Instr → Line
  | .dec sym declared val => if declared then sym :: ascii ": " ++ decimal val.toInt else ascii "DEC " ++ [sym]
  | .lda sym => ascii "LDA " ++ [sym]
  | .ldb sym => ascii "LDB " ++ [sym]
  | .ldi val => ascii "LDI " ++ decimal val.toInt
  | .st sym => ascii "ST " ++ [sym]
  | .xch => ascii "XCH"
  | .jmp d => ascii "JMP " ++ decimal d.toInt
  | .jzs d => ascii "JZS " ++ decimal d.toInt
  | .jvs d => ascii "JVS " ++ decimal d.toInt
  | .add => ascii "ADD"
  | .hlt => ascii "HLT"

/-- The text of a slot (R71). -/
def slotText : Slot → Line
  | .empty => ascii "null"
  | .instr i => instrText i

/-- The text of a slot word; that of an illegal word is a free value (log entry 18). -/
def wordText (w : SlotWord) : Line :=
  match decodeSlot w with
  | .ok slot => slotText slot
  | .error _ => Config.illegalRepr w

/-- The line of one memory address, `i: <repr>` (R70). -/
def memoryLine (s : State) (p : Nat) : Line :=
  decimalNat p ++ ascii ": " ++ wordText (s.mem.read (BitVec.ofNat 8 p))

/-- The five state lines and the heading (R70). -/
def stateLines (s : State) : List Line :=
  [ascii "Register A: " ++ decimal s.a.toInt,
   ascii "Register B: " ++ decimal s.b.toInt,
   ascii "Program counter: " ++ decimal s.pc.toInt,
   ascii "Zero bit: " ++ flagText s.z,
   ascii "Overflow bit: " ++ flagText s.v,
   ascii "Current memory:"]

/-- The lines of the snapshot, the memory lines in ascending order of address (R70). The state is read, never written
(R88). -/
def snapshotLines (s : State) : List Line :=
  stateLines s ++ (List.range Config.nSlots).map (memoryLine s)

/-- The snapshot: each line ends with a line feed (R70). -/
def snapshot (s : State) : List Byte := (snapshotLines s).flatMap fun line => line ++ [10]

end Sys2Proof.Machine
end

