-- ==== Sys2Proof/Safety.lean ====
section
/-! DEFINITION. The terms of the claims: the invariants of spec/10_state.md, and which ends of a run count as normal. -/

namespace Sys2Proof.Machine

/-- The slot at address `p`, or why its word is illegal. -/
def State.slotAt (s : State) (p : Addr) : Except IllegalWord Slot := decodeSlot (s.mem.read p)

/-- The pc names a slot: it is in 0..255 (R14, R80). -/
abbrev State.pcInRange (s : State) : Prop := 0 ≤ s.pc.toInt ∧ s.pc.toInt ≤ 255

/-- The address of the slot the pc names, where it names one (R13). -/
def State.pcSlot (s : State) : Addr := BitVec.ofNat 8 s.pc.toNat

/-- The report of an executed instruction, with its `diag_unbound` output (R150, R155). -/
def ranWith (diag : Bool) : Option StepReport := some ⟨.executed, diag⟩

/-- The report of a normal stop (R150). -/
def stoppedWith (r : StepResult) : Option StepReport := some ⟨r, false⟩

/-- Both tables of the state are in their canonical form. -/
def State.canonical (s : State) : Bool := s.mem.wf && s.sym.wf

/-- The invariants of R21 and R22 over the model's state, with the canonical forms. The range of A, B and the payloads
and that of the bound addresses are in the types. -/
structure State.Inv (s : State) : Prop where
  /-- The tables are in canonical form. -/
  canonical : s.canonical = true
  /-- Every slot holds a legal slot word (R68). -/
  legal : ∀ p, ∃ slot, s.slotAt p = .ok slot
  /-- A bound address names a declared DEC slot (R21) whose identifier is the bound name (R22). -/
  bound : ∀ c p, s.sym.lookup c = some p → ∃ x, s.slotAt p = .ok (.instr (.dec c true x))
  /-- A DEC slot with `declared` 0 has payload 0 (R19, R22). -/
  pending : ∀ p c x, s.slotAt p = .ok (.instr (.dec c false x)) → x = 0

/-- The part of a slot that no instruction changes: occupied or empty, the opcode, the identifier and the integer
operand; not the `declared` flag and the payload of a DEC slot (R18, R22). -/
def Slot.fixedPart : Slot → Slot
  | .instr (.dec sym _ _) => .instr (.dec sym false 0)
  | .instr (.lda sym) => .instr (.lda sym)
  | .instr (.ldb sym) => .instr (.ldb sym)
  | .instr (.ldi val) => .instr (.ldi val)
  | .instr (.st sym) => .instr (.st sym)
  | .instr .xch => .instr .xch
  | .instr (.jmp d) => .instr (.jmp d)
  | .instr (.jzs d) => .instr (.jzs d)
  | .instr (.jvs d) => .instr (.jvs d)
  | .instr .add => .instr .add
  | .instr .hlt => .instr .hlt
  | .empty => .empty

/-- The architectural state: `s` without the outputs of its last step (R10). -/
def State.arch (s : State) : State := { s with report := none }

/-- A run that ended in a normal stop, as against a fault (R89). -/
def RunEnd.normal (e : RunEnd) : Bool :=
  match e.report with
  | some r => r.result.isStop
  | none => false

/-- A state reached from `s₀` by steps of the machine. -/
inductive Reached (s₀ : State) : State → Prop where
  /-- No step. -/
  | start : Reached s₀ s₀
  /-- One more step. -/
  | step {s t : State} : Reached s₀ s → Machine.step s = .next t → Reached s₀ t

end Sys2Proof.Machine
end

