-- ==== Sys2Proof/Certificates/Slice0/Obligations.lean ====
section
/-! DEFINITION. The statements for the provers. Rule numbers are those of spec/. -/

namespace Sys2Proof.Claims

open Sys2Proof.Machine

/-- The number of a slot word from its fields (R65). -/
def wordNumber (occ opc : Nat) (dcl : Bool) (sym : SymCode) (val : Word) : Nat :=
  occ * 2 ^ 43 + opc * 2 ^ 39 + dcl.toNat * 2 ^ 38 + sym.toNat * 2 ^ 30 + val.toNat

/-- The number of the slot word of each slot: the rows of R66. -/
def slotNumber : Slot → Nat
  | .empty => wordNumber 0 0 false 0 0
  | .instr (.dec c d x) => wordNumber 1 0 d c x
  | .instr (.lda c) => wordNumber 1 1 false c 0
  | .instr (.ldb c) => wordNumber 1 2 false c 0
  | .instr (.ldi x) => wordNumber 1 3 false 0 x
  | .instr (.st c) => wordNumber 1 4 false c 0
  | .instr .xch => wordNumber 1 5 false 0 0
  | .instr (.jmp d) => wordNumber 1 6 false 0 d
  | .instr (.jzs d) => wordNumber 1 7 false 0 d
  | .instr (.jvs d) => wordNumber 1 8 false 0 d
  | .instr .add => wordNumber 1 9 false 0 0
  | .instr .hlt => wordNumber 1 10 false 0 0

/-- The eleven keywords (R55). -/
def keywords : List (List Byte) :=
  [ascii "DEC", ascii "LDA", ascii "LDB", ascii "LDI", ascii "ST", ascii "XCH", ascii "JMP", ascii "JZS", ascii "JVS",
   ascii "ADD", ascii "HLT"]

/-- The keywords whose operand is a decimal integer (R57). -/
def intKeywords : List (List Byte) := [ascii "LDI", ascii "JMP", ascii "JZS", ascii "JVS"]

/-- The pc after an instruction, as a signed value (R84). -/
def pcAfter (i : Instr) (s : State) : Int :=
  match i with
  | .dec _ _ _ => s.pc.toInt + 1
  | .lda _ => s.pc.toInt + 1
  | .ldb _ => s.pc.toInt + 1
  | .ldi _ => s.pc.toInt + 1
  | .st _ => s.pc.toInt + 1
  | .xch => s.pc.toInt + 1
  | .jmp d => d.toInt
  | .jzs d => if s.z then d.toInt else s.pc.toInt + 1
  | .jvs d => if s.v then d.toInt else s.pc.toInt + 1
  | .add => s.pc.toInt + 1
  | .hlt => s.pc.toInt

/-- `i` is a jump that is taken in `s`, to the address `d` (R120 to R122). -/
def takenJump (i : Instr) (s : State) (d : Word) : Prop :=
  i = .jmp d ∨ (i = .jzs d ∧ s.z = true) ∨ (i = .jvs d ∧ s.v = true)

/-- What the load port leaves of memory `m` after these clock edges with `load` high (R90). -/
def portImage (m : Memory) (edges : List PortsIn) : Memory :=
  edges.foldl (fun m i => if i.ldWe then m.write i.ldAddr i.ldData else m) m

/-- The `done` pulse of a report: its code and `diag_unbound` (R90, R150). -/
def pulse (r : Option StepReport) : List (BitVec 3 × Bool) :=
  (r.map fun x => (x.result.code, x.diagUnbound)).toList

end Sys2Proof.Claims

open Sys2Proof Sys2Proof.Machine Sys2Proof.Claims

/-! ### Encoding -/

/-- `decode(encode(s)) = s` for every slot and `encode(decode(w)) = w` for every legal word (30_encoding.md section 4,
the first two sentences of its rule on encode and decode). -/
def Obligations.DecodeEncodeAgree : Prop :=
  (∀ slot : Slot, decodeSlot (encodeSlot slot) = .ok slot) ∧
  (∀ (w : SlotWord) (slot : Slot), decodeSlot w = .ok slot → encodeSlot slot = w)

/-- R65, R66: the legal slot words are those of the table, each standing for its slot, with the number R65 gives. -/
def Obligations.LegalWordsAreTheTable : Prop :=
  ∀ (w : SlotWord) (slot : Slot), decodeSlot w = .ok slot ↔ w.toNat = slotNumber slot

/-- The three kinds of illegal word (30_encoding.md section 4): OCC = 0 with another bit set, OPC 11 to 15, a
must-be-zero field that is not 0. Each kind is told by its own name. -/
def Obligations.IllegalWordsByKind : Prop :=
  ∀ w : SlotWord,
    (decodeSlot w = .error .unoccupiedNotZero ↔ occF w = false ∧ w ≠ 0) ∧
    (decodeSlot w = .error .reservedOpcode ↔ occF w = true ∧ 11 ≤ (opcF w).toNat) ∧
    (decodeSlot w = .error .nonzeroField ↔
      occF w = true ∧ (opcF w).toNat ≤ 10 ∧ (opcF w).toNat ≠ 0 ∧
        (dclF w = true ∨
         (symF w ≠ 0 ∧ (opcF w).toNat ∉ [1, 2, 4]) ∨
         (valF w ≠ 0 ∧ (opcF w).toNat ∉ [3, 6, 7, 8])))

/-- The match and mask form of 30_encoding.md section 4, which the spec marks as its own inference: a word is a legal
word of an instruction exactly when it agrees with the row's match under the row's mask; it matches at most one row; a
word that matches no row is legal only if it is the all-zero word. -/
def Obligations.MatchAndMaskRows : Prop :=
  (∀ (w : SlotWord) (i : Instr),
    matchesRow w i = true ↔ ∃ j : Instr, decodeSlot w = .ok (.instr j) ∧ j.opcode = i.opcode) ∧
  (∀ (w : SlotWord) (i j : Instr), matchesRow w i = true → matchesRow w j = true → i.opcode = j.opcode) ∧
  (∀ w : SlotWord, (∀ i : Instr, matchesRow w i = false) → (legalWord w = true ↔ w = 0))

/-- The number of legal slot words is 1 + 2^39 + 3 * 2^8 + 4 * 2^30 + 3 (30_encoding.md section 4). -/
def Obligations.LegalWordCount : Prop :=
  Nat.card { w : SlotWord // legalWord w = true } = 1 + 2 ^ 39 + 3 * 2 ^ 8 + 4 * 2 ^ 30 + 3

/-- A few words of 95_test_vectors.md section 2.2, and of R66, decode to their instructions. -/
def Obligations.SampleWordsDecode : Prop :=
  decodeTableWord 44 0x85E0000000A = some (.dec 120 true 10) ∧
  decodeTableWord 44 0x89840000000 = some (.lda 97) ∧
  decodeTableWord 44 0x9803FFFFFFF = some (.ldi (-1)) ∧
  decodeTableWord 44 0xC003FFFFFFB = some (.jvs (-5)) ∧
  decodeTableWord 44 0xC8000000000 = some .add ∧
  decodeTableWord 44 0xD0000000000 = some .hlt ∧
  decodeTableWord 44 0xD8000000000 = none

/-- Every instruction that a line can stand for is loaded back from the line of its keyword and operand
(30_encoding.md sections 3 and 5). -/
def Obligations.TextAndLoaderAgree : Prop :=
  ∀ i : Instr, i.hasText = true → loadLine (instrText i) = .ok (.instr i)

/-! ### The step -/

/-- A step runs the instruction that the slot at the pc decodes to (40_fetch_execute.md section 1). -/
def Obligations.StepRunsDecodedInstruction : Prop :=
  ∀ (s : State) (i : Instr), s.pcInRange → s.slotAt s.pcSlot = .ok (.instr i) → step s = exec i s

/-- An instruction placed where the step fetches is the one the next step runs, and the placing changes that one slot
(40_fetch_execute.md section 1; the placing itself is the model's own, log entries 3 and 19). -/
def Obligations.PlacedInstructionRuns : Prop :=
  ∀ (s : State) (i : Instr) (n : Nat), s.pcInRange →
    step (s.withFetchWord n (encode i).toNat) = exec i (s.withFetchWord n (encode i).toNat) ∧
    (∀ q, q ≠ s.pcSlot → (s.withFetchWord n (encode i).toNat).mem.read q = s.mem.read q) ∧
    { s.withFetchWord n (encode i).toNat with mem := s.mem } = s

/-- R80: the results of a step. A normal stop is a next state that differs in its outputs only, the model's form of
the spec's "state unchanged" (log entries 4 and 5). -/
def Obligations.StepResults : Prop :=
  ∀ s : State,
    (¬ s.pcInRange → step s = .fault .pcRange) ∧
    (s.pcInRange → ∀ e, s.slotAt s.pcSlot = .error e → step s = .fault .illegalSlot) ∧
    (s.pcInRange → s.slotAt s.pcSlot = .ok .empty → step s = .next { s with report := stoppedWith .stopEmpty }) ∧
    (s.pcInRange → s.slotAt s.pcSlot = .ok (.instr .hlt) →
      step s = .next { s with report := stoppedWith .stopHalt }) ∧
    (s.pcInRange → ∀ i, i ≠ .hlt → s.slotAt s.pcSlot = .ok (.instr i) →
      step s = exec i s ∧ ∃ t d, step s = .next t ∧ t.report = ranWith d) ∧
    (executed (step s) = true ↔ ∃ d, reportOf (step s) = ranWith d)

/-- A step that does not execute leaves everything unchanged, and a further step does the same again
(40_fetch_execute.md section 1, where the second half is marked as the spec's own inference). -/
def Obligations.StopsAndFaultsChangeNothing : Prop :=
  ∀ s : State, executed (step s) = false →
    (stateAfter s (step s)).arch = s.arch ∧
    reportOf (step (stateAfter s (step s))) = reportOf (step s) ∧
    (stateAfter (stateAfter s (step s)) (step (stateAfter s (step s)))).arch = s.arch

/-- R153: when PC_RANGE is raised, that it changes nothing, and the two ways a pc outside memory arises. -/
def Obligations.PcRangeFault : Prop :=
  (∀ s : State, step s = .fault .pcRange ↔ ¬ s.pcInRange) ∧
  (∀ s : State, ¬ s.pcInRange → stateAfter s (step s) = s) ∧
  (∀ s t : State, s.pcInRange → step s = .next t → ¬ t.pcInRange →
    (s.pc = 255 ∧ t.pc = 256) ∨
    ∃ i d, s.slotAt s.pcSlot = .ok (.instr i) ∧ takenJump i s d ∧ t.pc = d ∧ ¬ (0 ≤ d.toInt ∧ d.toInt ≤ 255))

/-- R154: when ILLEGAL_SLOT is raised, that it changes nothing, and that a program loaded from text never raises it. -/
def Obligations.IllegalSlotFault : Prop :=
  (∀ s : State, step s = .fault .illegalSlot ↔ s.pcInRange ∧ ∃ e, s.slotAt s.pcSlot = .error e) ∧
  (∀ s : State, step s = .fault .illegalSlot → stateAfter s (step s) = s) ∧
  (∀ (s s₁ t : State) (lines : List Line), s.load lines = .next s₁ → Reached s₁ t → step t ≠ .fault .illegalSlot)

/-- R84: the pc after an executed instruction, as a signed value that does not wrap; HLT does not advance it. -/
def Obligations.PcRule : Prop :=
  ∀ (s t : State) (i : Instr), s.pcInRange → s.slotAt s.pcSlot = .ok (.instr i) → step s = .next t →
    t.pc.toInt = pcAfter i s

/-- R85: an executed step leaves the pc equal exactly when it took a jump to its own address; then the whole state is
unchanged and the machine loops for ever on that slot. -/
def Obligations.OnlySelfJumpKeepsPc : Prop :=
  ∀ s t : State, step s = .next t → executed (.next t) = true →
    (t.pc = s.pc ↔ ∃ i, s.slotAt s.pcSlot = .ok (.instr i) ∧ takenJump i s s.pc) ∧
    (t.pc = s.pc → t.arch = s.arch ∧ RunsForever s)

/-- No step depends on the outputs of the step before it: the result is an output and is not stored
(60_exceptions.md section 1; log entry 5). -/
def Obligations.ReportIsNotRead : Prop :=
  ∀ (s : State) (r : Option StepReport), step { s with report := r } = step s

/-- `diag_unbound` is 1 for a step that executed LDA, LDB or ST on an unbound name, and 0 for every other step
(60_exceptions.md section 2). -/
def Obligations.DiagUnboundOutput : Prop :=
  ∀ (s : State) (r : StepReport), reportOf (step s) = some r →
    (r.diagUnbound = true ↔
      s.pcInRange ∧ ∃ c, s.sym.lookup c = none ∧
        (s.slotAt s.pcSlot = .ok (.instr (.lda c)) ∨ s.slotAt s.pcSlot = .ok (.instr (.ldb c)) ∨
         s.slotAt s.pcSlot = .ok (.instr (.st c))))

/-! ### Flags, and what each instruction writes -/

/-- R15: what writes Z and what reads it. -/
def Obligations.ZeroFlag : Prop :=
  (∀ s t : State, exec .add s = .next t → (t.z = true ↔ t.a = 0)) ∧
  (∀ (i : Instr) (s t : State), i ≠ .add → exec i s = .next t → t.z = s.z) ∧
  (∀ (i : Instr) (s t : State) (f : Bool), (∀ d, i ≠ .jzs d) → exec i s = .next t →
    exec i { s with z := f } = .next { t with z := if i = .add then t.z else f }) ∧
  (∀ (d : Word) (s : State), ∃ t, exec (.jzs d) s = .next t ∧ t.pc = if s.z then d else s.pc + 1) ∧
  State.reset.z = false

/-- R16: what writes V and what reads it. -/
def Obligations.OverflowFlag : Prop :=
  (∀ s t : State, exec .add s = .next t →
    (t.v = true ↔ s.a.toInt + s.b.toInt < -2 ^ 29 ∨ 2 ^ 29 - 1 < s.a.toInt + s.b.toInt)) ∧
  (∀ (i : Instr) (s t : State), i ≠ .add → exec i s = .next t → t.v = s.v) ∧
  (∀ (i : Instr) (s t : State) (f : Bool), (∀ d, i ≠ .jvs d) → exec i s = .next t →
    exec i { s with v := f } = .next { t with v := if i = .add then t.v else f }) ∧
  (∀ (d : Word) (s : State), ∃ t, exec (.jvs d) s = .next t ∧ t.pc = if s.v then d else s.pc + 1) ∧
  State.reset.v = false

/-- The frame of every instruction: what it leaves unchanged (10_state.md section 10). The own slot of a DEC is the one
at the pc; the slot an ST writes is the one its name is bound to. -/
def Obligations.WriteFrames : Prop :=
  ∀ (i : Instr) (s t : State), exec i s = .next t →
    ((∀ c, i ≠ .lda c) → (∀ x, i ≠ .ldi x) → i ≠ .xch → i ≠ .add → t.a = s.a) ∧
    ((∀ c, i ≠ .ldb c) → i ≠ .xch → t.b = s.b) ∧
    (i ≠ .add → t.z = s.z ∧ t.v = s.v) ∧
    ((∀ c x, i ≠ .dec c false x) → t.sym = s.sym) ∧
    (∀ c x, i = .dec c false x → ∀ k, k ≠ c → t.sym.lookup k = s.sym.lookup k) ∧
    ((∀ c x, i ≠ .dec c false x) → (∀ c, i ≠ .st c) → t.mem = s.mem) ∧
    (∀ c x, i = .dec c false x → ∀ q, q ≠ s.pcSlot → t.mem.read q = s.mem.read q) ∧
    (∀ c, i = .st c → s.sym.lookup c = none → t.mem = s.mem) ∧
    (∀ c p, i = .st c → s.sym.lookup c = some p → ∀ q, q ≠ p → t.mem.read q = s.mem.read q) ∧
    (i = .hlt → t.arch = s.arch)

/-! ### Invariants -/

/-- Every step keeps the invariants of the state: the canonical tables, legal slot words, bindings that name declared
DEC slots of their own name, payload 0 in undeclared ones (10_state.md sections 6 and 7). -/
def Obligations.StepKeepsInv : Prop := ∀ s t : State, s.Inv → step s = .next t → t.Inv

/-- From every state with the invariants, a step leaves every slot empty or occupied as it was, with its opcode, its
identifier and its integer operand (10_state.md section 6). -/
def Obligations.StepKeepsFixedParts : Prop :=
  ∀ s t : State, s.Inv → step s = .next t →
    ∀ p, (t.slotAt p).map Slot.fixedPart = (s.slotAt p).map Slot.fixedPart

/-- The invariants hold at reset. -/
def Obligations.InvAtReset : Prop := State.reset.Inv

/-- The invariants hold after every load that is not refused, from whatever state (70_reset_and_hazards.md section 1). -/
def Obligations.LoadGivesInv : Prop :=
  ∀ (s t : State) (lines : List Line), s.load lines = .next t → t.Inv

/-- Every step keeps the canonical form of memory and of the symbol table, in every state that has it, with any slot
words and any bindings (log entries 1 and 2). -/
def Obligations.StepKeepsCanonicalForm : Prop :=
  ∀ s t : State, s.canonical = true → step s = .next t → t.canonical = true

/-- Memories in canonical form that read alike at every address are equal, so the form is one per memory contents (the
model's own convention, log entry 1). -/
def Obligations.CanonicalMemoryIsUnique : Prop :=
  ∀ m m' : Memory, m.wf = true → m'.wf = true → (∀ p : Addr, m.read p = m'.read p) → m = m'

/-- R21: in every state reached from a load, a bound address names a DEC slot whose `declared` flag is set; the converse
does not hold. -/
def Obligations.BoundNamesDeclaredSlot : Prop :=
  (∀ (s s₁ t : State) (lines : List Line), s.load lines = .next s₁ → Reached s₁ t →
    ∀ c p, t.sym.lookup c = some p → ∃ k x, t.slotAt p = .ok (.instr (.dec k true x))) ∧
  (∃ (s s₁ t : State) (lines : List Line), s.load lines = .next s₁ ∧ Reached s₁ t ∧
    ∃ p k x, t.slotAt p = .ok (.instr (.dec k true x)) ∧ ∀ c, t.sym.lookup c ≠ some p)

/-- The further invariants of every state reached from a load (10_state.md section 7, which marks them as the spec's own
inference). -/
def Obligations.ReachableStateInvariants : Prop :=
  ∀ (s s₁ t : State) (lines : List Line), s.load lines = .next s₁ → Reached s₁ t →
    (∀ c p, t.sym.lookup c = some p → ∃ d x, t.slotAt p = .ok (.instr (.dec c d x))) ∧
    (∀ c p, t.sym.lookup c = some p → p.toNat ≤ 255) ∧
    (-2 ^ 29 ≤ t.a.toInt ∧ t.a.toInt ≤ 2 ^ 29 - 1) ∧
    (-2 ^ 29 ≤ t.b.toInt ∧ t.b.toInt ≤ 2 ^ 29 - 1) ∧
    (∀ p c d x, t.slotAt p = .ok (.instr (.dec c d x)) →
      (-2 ^ 29 ≤ x.toInt ∧ x.toInt ≤ 2 ^ 29 - 1) ∧ (d = false → x = 0)) ∧
    (∀ p, (t.slotAt p).map Slot.fixedPart = (s₁.slotAt p).map Slot.fixedPart)

/-! ### The ALU and ADD -/

/-- R130: `wrap30`, and that its value is back in range for every sum of two values of the 30-bit range. -/
def Obligations.WrapThirty : Prop :=
  ∀ t : Int,
    wrap30 t = (if 536870911 < t then (t - 1073741824, true)
      else if t < -536870912 then (t + 1073741824, true) else (t, false)) ∧
    (-1073741824 ≤ t → t ≤ 1073741822 → -536870912 ≤ (wrap30 t).1 ∧ (wrap30 t).1 ≤ 536870911)

/-- R131: ADD. -/
def Obligations.AddAddsBToA : Prop :=
  (encode .add).toNat = 2 ^ 43 + 9 * 2 ^ 39 ∧
  loadLine (ascii "ADD") = .ok (.instr .add) ∧
  ∀ s : State, ∃ t, exec .add s = .next t ∧
    t.a.toInt = (wrap30 (s.a.toInt + s.b.toInt)).1 ∧
    t.v = (wrap30 (s.a.toInt + s.b.toInt)).2 ∧
    (t.z = true ↔ (wrap30 (s.a.toInt + s.b.toInt)).1 = 0) ∧
    t = { s with a := t.a, z := t.z, v := t.v, pc := s.pc + 1, report := ranWith false }

/-- The same operation at the level of bits (44_arithmetic.md, which marks the equality as the spec's own inference). -/
def Obligations.AddIsTheHardwareAdder : Prop :=
  (∀ a b : Word, aluAdd a b = adder30 a b ∧ (adder30 a b).sum.toNat = (a.toNat + b.toNat) % 2 ^ 30) ∧
  (∀ s : State, exec .add s = .next
    { s with
      a := s.a + s.b
      v := s.a.getLsbD 29 == s.b.getLsbD 29 && (s.a + s.b).getLsbD 29 != s.a.getLsbD 29
      z := s.a + s.b == 0
      pc := s.pc + 1
      report := ranWith false })

/-- The laws of the arithmetic (44_arithmetic.md, which marks the range of the result and commutativity as the spec's own
inference). -/
def Obligations.AddLaws : Prop :=
  ∀ a b : Word,
    (-2 ^ 29 ≤ a.toInt + b.toInt → a.toInt + b.toInt ≤ 2 ^ 29 - 1 →
      (aluAdd a b).overflow = false ∧ (aluAdd a b).sum.toInt = a.toInt + b.toInt) ∧
    (2 ^ 29 - 1 < a.toInt + b.toInt →
      (aluAdd a b).overflow = true ∧ (aluAdd a b).sum.toInt = a.toInt + b.toInt - 2 ^ 30 ∧
        -2 ^ 29 ≤ (aluAdd a b).sum.toInt ∧ (aluAdd a b).sum.toInt ≤ -2) ∧
    (a.toInt + b.toInt < -2 ^ 29 →
      (aluAdd a b).overflow = true ∧ (aluAdd a b).sum.toInt = a.toInt + b.toInt + 2 ^ 30 ∧
        0 ≤ (aluAdd a b).sum.toInt ∧ (aluAdd a b).sum.toInt ≤ 2 ^ 29 - 1) ∧
    (-2 ^ 30 ≤ a.toInt + b.toInt ∧ a.toInt + b.toInt ≤ 2 ^ 30 - 2) ∧
    ((aluAdd a b).zero = true ↔ (aluAdd a b).sum.toInt = 0) ∧
    (aluAdd a b).sum.toInt % 2 ^ 30 = (a.toInt + b.toInt) % 2 ^ 30 ∧
    aluAdd a b = aluAdd b a

/-- Z and V are both set by one pair of operands only (44_arithmetic.md, ADD, corner cases). -/
def Obligations.BothFlagsOnlyAtTheMinimum : Prop :=
  ∀ s t : State, exec .add s = .next t →
    (t.z = true ∧ t.v = true ↔ s.a.toInt = -536870912 ∧ s.b.toInt = -536870912)

/-! ### DEC -/

/-- R100: DEC, on its first execution and on later ones. -/
def Obligations.DecDeclaresItsName : Prop :=
  ∀ (c : SymCode) (x : Word) (s : State),
    (∀ d, (encode (.dec c d x)).toNat = 2 ^ 43 + d.toNat * 2 ^ 38 + c.toNat * 2 ^ 30 + x.toNat) ∧
    (isNameChar c = true → loadLine (ascii "DEC " ++ [c]) = .ok (.instr (.dec c false 0))) ∧
    (s.pcInRange → s.slotAt s.pcSlot = .ok (.instr (.dec c false x)) →
      ∃ t, exec (.dec c false x) s = .next t ∧
        t.sym.lookup c = some s.pcSlot ∧
        (∀ k, k ≠ c → t.sym.lookup k = s.sym.lookup k) ∧
        t.slotAt s.pcSlot = .ok (.instr (.dec c true 0)) ∧
        (∀ q, q ≠ s.pcSlot → t.mem.read q = s.mem.read q) ∧
        t = { s with sym := t.sym, mem := t.mem, pc := s.pc + 1, report := ranWith false }) ∧
    exec (.dec c true x) s = .next { s with pc := s.pc + 1, report := ranWith false }

/-- R101: a second DEC slot of one name takes the binding; the first keeps its payload, and reaching it again does not
take the binding back. -/
def Obligations.SecondDecRebinds : Prop :=
  ∀ (c : SymCode) (x y : Word) (p : Addr) (s : State),
    s.pcInRange → p ≠ s.pcSlot → s.sym.lookup c = some p →
    s.slotAt p = .ok (.instr (.dec c true x)) → s.slotAt s.pcSlot = .ok (.instr (.dec c false y)) →
    ∃ t, step s = .next t ∧
      t.sym.lookup c = some s.pcSlot ∧
      t.slotAt s.pcSlot = .ok (.instr (.dec c true 0)) ∧
      t.slotAt p = .ok (.instr (.dec c true x)) ∧
      step { t with pc := p.setWidth 30 } =
        .next { t with pc := p.setWidth 30 + 1, report := ranWith false }

/-! ### Load, store and exchange -/

/-- A payload read gives the payload of the DEC slot; a payload write changes that payload and nothing else
(20_memory.md section 4). -/
def Obligations.PayloadReadAndWrite : Prop :=
  ∀ (s : State) (p : Addr) (c : SymCode) (d : Bool) (x y : Word),
    s.slotAt p = .ok (.instr (.dec c d x)) →
      s.memRead p = x ∧
      (s.memWrite p y).slotAt p = .ok (.instr (.dec c d y)) ∧
      (∀ q, q ≠ p → (s.memWrite p y).mem.read q = s.mem.read q) ∧
      { s.memWrite p y with mem := s.mem } = s

/-- R110: LDA. Bound, unbound, with the text and the slot word of the instruction. A binding to a slot that is no DEC
slot, which no run reaches, reads that slot's VAL field (log entry 10). -/
def Obligations.LdaLoadsA : Prop :=
  ∀ (c : SymCode) (s : State),
    (encode (.lda c)).toNat = 2 ^ 43 + 2 ^ 39 + c.toNat * 2 ^ 30 ∧
    (isNameChar c = true → loadLine (ascii "LDA " ++ [c]) = .ok (.instr (.lda c))) ∧
    (∀ p, s.sym.lookup c = some p →
      exec (.lda c) s = .next { s with a := s.memRead p, pc := s.pc + 1, report := ranWith false }) ∧
    (∀ p k d x, s.sym.lookup c = some p → s.slotAt p = .ok (.instr (.dec k d x)) →
      exec (.lda c) s = .next { s with a := x, pc := s.pc + 1, report := ranWith false }) ∧
    (s.sym.lookup c = none → exec (.lda c) s = .next { s with pc := s.pc + 1, report := ranWith true })

/-- R111: LDB. As LDA, with B (log entry 10). -/
def Obligations.LdbLoadsB : Prop :=
  ∀ (c : SymCode) (s : State),
    (encode (.ldb c)).toNat = 2 ^ 43 + 2 * 2 ^ 39 + c.toNat * 2 ^ 30 ∧
    (isNameChar c = true → loadLine (ascii "LDB " ++ [c]) = .ok (.instr (.ldb c))) ∧
    (∀ p, s.sym.lookup c = some p →
      exec (.ldb c) s = .next { s with b := s.memRead p, pc := s.pc + 1, report := ranWith false }) ∧
    (∀ p k d x, s.sym.lookup c = some p → s.slotAt p = .ok (.instr (.dec k d x)) →
      exec (.ldb c) s = .next { s with b := x, pc := s.pc + 1, report := ranWith false }) ∧
    (s.sym.lookup c = none → exec (.ldb c) s = .next { s with pc := s.pc + 1, report := ranWith true })

/-- R112: LDI. -/
def Obligations.LdiLoadsTheImmediate : Prop :=
  ∀ (x : Word) (s : State),
    (encode (.ldi x)).toNat = 2 ^ 43 + 3 * 2 ^ 39 + x.toNat ∧
    (∀ tok, intToken tok = some x.toInt → loadLine (ascii "LDI " ++ tok) = .ok (.instr (.ldi x))) ∧
    exec (.ldi x) s = .next { s with a := x, pc := s.pc + 1, report := ranWith false }

/-- R113: ST. The slot stored to is the one the name is bound to; its payload alone changes (log entry 10 for a binding
to a slot that is no DEC slot, which no run reaches). -/
def Obligations.StStoresA : Prop :=
  ∀ (c : SymCode) (s : State),
    (encode (.st c)).toNat = 2 ^ 43 + 4 * 2 ^ 39 + c.toNat * 2 ^ 30 ∧
    (isNameChar c = true → loadLine (ascii "ST " ++ [c]) = .ok (.instr (.st c))) ∧
    (∀ p, s.sym.lookup c = some p →
      ∃ t, exec (.st c) s = .next t ∧
        t.memRead p = s.a ∧
        (∀ k d x, s.slotAt p = .ok (.instr (.dec k d x)) → t.slotAt p = .ok (.instr (.dec k d s.a))) ∧
        (∀ q, q ≠ p → t.mem.read q = s.mem.read q) ∧
        t = { s with mem := t.mem, pc := s.pc + 1, report := ranWith false }) ∧
    (s.sym.lookup c = none → exec (.st c) s = .next { s with pc := s.pc + 1, report := ranWith true })

/-- R114: XCH, and that it is its own inverse. -/
def Obligations.XchSwaps : Prop :=
  (encode .xch).toNat = 2 ^ 43 + 5 * 2 ^ 39 ∧
  loadLine (ascii "XCH") = .ok (.instr .xch) ∧
  ∀ s : State,
    exec .xch s = .next { s with a := s.b, b := s.a, pc := s.pc + 1, report := ranWith false } ∧
    ∃ t u, exec .xch s = .next t ∧ exec .xch t = .next u ∧ u.a = s.a ∧ u.b = s.b

/-- A load directly after a store to the same name reads what the store wrote, and the store changes the payload of no
other slot, bound or not, and no binding; a payload changes only by a store to its slot or by the first execution of its
own DEC, so what a later load reads is the latest store's (20_memory.md sections 4 and 6). -/
def Obligations.LoadReadsTheLatestStore : Prop :=
  (∀ (c : SymCode) (p : Addr) (s : State), s.sym.lookup c = some p →
    ∃ t u u', exec (.st c) s = .next t ∧
      exec (.lda c) t = .next u ∧ u.a = s.a ∧
      exec (.ldb c) t = .next u' ∧ u'.b = s.a ∧
      t.sym = s.sym ∧ ∀ q, q ≠ p → t.memRead q = s.memRead q) ∧
  (∀ (i : Instr) (s t : State) (p : Addr), exec i s = .next t → t.memRead p ≠ s.memRead p →
    (∃ c, i = .st c ∧ s.sym.lookup c = some p ∧ t.memRead p = s.a) ∨
    (∃ c x, i = .dec c false x ∧ s.pcSlot = p ∧ t.memRead p = 0))

/-! ### Jumps -/

/-- R120: JMP. -/
def Obligations.JmpJumps : Prop :=
  ∀ (d : Word) (s : State),
    (encode (.jmp d)).toNat = 2 ^ 43 + 6 * 2 ^ 39 + d.toNat ∧
    (∀ tok, intToken tok = some d.toInt → loadLine (ascii "JMP " ++ tok) = .ok (.instr (.jmp d))) ∧
    exec (.jmp d) s = .next { s with pc := d, report := ranWith false }

/-- R121: JZS. -/
def Obligations.JzsJumpsOnZero : Prop :=
  ∀ (d : Word) (s : State),
    (encode (.jzs d)).toNat = 2 ^ 43 + 7 * 2 ^ 39 + d.toNat ∧
    (∀ tok, intToken tok = some d.toInt → loadLine (ascii "JZS " ++ tok) = .ok (.instr (.jzs d))) ∧
    (s.z = true → exec (.jzs d) s = .next { s with pc := d, report := ranWith false }) ∧
    (s.z = false → exec (.jzs d) s = .next { s with pc := s.pc + 1, report := ranWith false })

/-- R122: JVS. -/
def Obligations.JvsJumpsOnOverflow : Prop :=
  ∀ (d : Word) (s : State),
    (encode (.jvs d)).toNat = 2 ^ 43 + 8 * 2 ^ 39 + d.toNat ∧
    (∀ tok, intToken tok = some d.toInt → loadLine (ascii "JVS " ++ tok) = .ok (.instr (.jvs d))) ∧
    (s.v = true → exec (.jvs d) s = .next { s with pc := d, report := ranWith false }) ∧
    (s.v = false → exec (.jvs d) s = .next { s with pc := s.pc + 1, report := ranWith false })

/-- A taken jump out of memory executes, sets the pc to its target as it stands, and the step after it faults; a jump
that is not taken is harmless whatever its target (43_jump.md, properties of the family). -/
def Obligations.JumpOutOfMemoryFaultsNext : Prop :=
  ∀ (i : Instr) (d : Word) (s : State), ¬ (0 ≤ d.toInt ∧ d.toInt ≤ 255) →
    (takenJump i s d → ∃ t, exec i s = .next t ∧ t.pc = d ∧ t.report = ranWith false ∧ step t = .fault .pcRange) ∧
    (i = .jzs d ∧ s.z = false ∨ i = .jvs d ∧ s.v = false →
      ∃ t, exec i s = .next t ∧ t.pc = s.pc + 1 ∧ t.report = ranWith false)

/-! ### HLT -/

/-- R140: HLT reports Stop(HALT) and changes nothing, and does so for ever. The stop is a next state that differs in its
outputs only (log entries 4 and 5). -/
def Obligations.HltStops : Prop :=
  (encode .hlt).toNat = 2 ^ 43 + 10 * 2 ^ 39 ∧
  loadLine (ascii "HLT") = .ok (.instr .hlt) ∧
  ∀ s : State,
    exec .hlt s = .next { s with report := stoppedWith .stopHalt } ∧
    (s.pcInRange → s.slotAt s.pcSlot = .ok (.instr .hlt) →
      step s = .next { s with report := stoppedWith .stopHalt } ∧
      step { s with report := stoppedWith .stopHalt } = .next { s with report := stoppedWith .stopHalt })

/-! ### Runs -/

/-- R86: a run ends at the first step that does not execute, with that step's result and the state after the last
executed step, in one way only; a run whose first step does not execute changes nothing; and a run that comes to such a
step ends there. -/
def Obligations.RunEndsAtTheFirstStop : Prop :=
  (∀ (s : State) (e : RunEnd), RunsTo s e →
    Reached s e.state ∧
    executed (step e.state) = false ∧
    e.report = reportOf (step e.state) ∧
    (∀ e', RunsTo s e' → e' = e) ∧
    (executed (step s) = false → e.state.arch = s.arch)) ∧
  (∀ s t : State, Reached s t → executed (step t) = false →
    ∃ e, RunsTo s e ∧ e.report = reportOf (step t) ∧ e.state.arch = t.arch)

/-- The end of a run is a normal stop, on HLT or an empty slot, that stays as it is, or a fault, never both
(40_fetch_execute.md section 4; log entry 4). -/
def Obligations.RunEndIsStopOrFault : Prop :=
  ∀ (s : State) (e : RunEnd), RunsTo s e →
    (e.normal = true ↔ e.report = stoppedWith .stopHalt ∨ e.report = stoppedWith .stopEmpty) ∧
    (e.normal = true → step e.state = .next e.state) ∧
    (e.normal = false → ∃ f, step e.state = .fault f ∧ e.report = some ⟨f.result, false⟩)

/-! ### The load -/

/-- The reset values; power-on is the load of zero lines; its first step is Stop(EMPTY) at pc 0 (10_state.md section 9 and
70_reset_and_hazards.md section 1; A = B = 0 is the spec's own decision, log entry 6). -/
def Obligations.PowerOnIsTheEmptyLoad : Prop :=
  State.reset.a = 0 ∧ State.reset.b = 0 ∧ State.reset.pc = 0 ∧ State.reset.z = false ∧ State.reset.v = false ∧
  (∀ p, State.reset.slotAt p = .ok .empty) ∧ (∀ c, State.reset.sym.lookup c = none) ∧
  (∀ s : State, s.load [] = .next State.reset) ∧
  step State.reset = .next { State.reset with report := stoppedWith .stopEmpty }

/-- R170: the load clears everything, whatever the state was, then fills memory from the text; it leaves every DEC slot
undeclared. -/
def Obligations.LoadResetsEverything : Prop :=
  ∀ (s s' : State) (lines : List Line),
    s.load lines = s'.load lines ∧
    ∀ t, s.load lines = .next t →
      t.a = 0 ∧ t.b = 0 ∧ t.pc = 0 ∧ t.z = false ∧ t.v = false ∧
      (∀ c, t.sym.lookup c = none) ∧
      (∃ slots, assemble (lines.take 256) = .ok slots ∧ t.mem = Memory.fill [] 0 slots) ∧
      ∀ p c d x, t.slotAt p = .ok (.instr (.dec c d x)) → d = false ∧ x = 0

/-- The slot at each address after a load is that of its line, empty past the last line; lines beyond 256 are ignored,
whatever they hold (30_encoding.md section 3). That a literal outside the 30-bit range in such a line does not refuse
the text is the model's deduction, log entry 11. -/
def Obligations.LoadFillsMemoryFromLines : Prop :=
  (∀ (s t : State) (lines : List Line), s.load lines = .next t → ∀ p : Addr,
    (∀ line, lines[p.toNat]? = some line → ∃ slot, loadLine line = .ok slot ∧ t.slotAt p = .ok slot) ∧
    (lines[p.toNat]? = none → t.slotAt p = .ok .empty)) ∧
  (∀ (s : State) (lines more : List Line), lines.length = 256 → s.load (lines ++ more) = s.load lines) ∧
  (∀ (s : State) (lines : List Line), (∀ line ∈ lines.take 256, ∃ slot, loadLine line = .ok slot) →
    ∃ t, s.load lines = .next t)

/-- R58: a text of at most 256 lines is refused exactly for a well-formed decimal literal outside the 30-bit range in one
of them; within the range nothing is checked. -/
def Obligations.LoadRefusesWideLiterals : Prop :=
  (∀ (s : State) (lines : List Line), lines.length ≤ 256 →
    ((∃ r, s.load lines = .refused r) ↔ ∃ line ∈ lines, ∃ keyword tok rest n,
      tokens line = keyword :: tok :: rest ∧ keyword ∈ intKeywords ∧ intToken tok = some n ∧
      (n < -536870912 ∨ 536870911 < n))) ∧
  (∀ (tok : List Byte) (n : Int), intToken tok = some n → -536870912 ≤ n → n ≤ 536870911 →
    slotOfTokens (ascii "LDI") (some tok) = .ok (.instr (.ldi (BitVec.ofInt 30 n))) ∧
    slotOfTokens (ascii "JMP") (some tok) = .ok (.instr (.jmp (BitVec.ofInt 30 n))) ∧
    slotOfTokens (ascii "JZS") (some tok) = .ok (.instr (.jzs (BitVec.ofInt 30 n))) ∧
    slotOfTokens (ascii "JVS") (some tok) = .ok (.instr (.jvs (BitVec.ofInt 30 n))))

/-- A line is an empty slot exactly when it has no token or its first token is none of the eleven keywords, and it
consumes its address all the same (30_encoding.md section 3). -/
def Obligations.UnrecognisedLineIsAnEmptySlot : Prop :=
  (∀ line : Line, loadLine line = .ok .empty ↔ ∀ keyword rest, tokens line = keyword :: rest → keyword ∉ keywords) ∧
  (∀ (s t : State) (before after : List Line) (line next : Line), before.length < 255 →
    loadLine line = .ok .empty → s.load (before ++ line :: next :: after) = .next t →
    t.slotAt (BitVec.ofNat 8 before.length) = .ok .empty ∧
    ∃ slot, loadLine next = .ok slot ∧ t.slotAt (BitVec.ofNat 8 (before.length + 1)) = .ok slot)

/-- R59: an operand whose text is malformed or missing takes the open value; the line still gives its instruction. -/
def Obligations.MalformedOperandTakesTheOpenValue : Prop :=
  (∀ operand : Option (List Byte), (∀ c, operand ≠ some [c]) →
    slotOfTokens (ascii "DEC") operand = .ok (.instr (.dec Config.malformedSym false 0)) ∧
    slotOfTokens (ascii "LDA") operand = .ok (.instr (.lda Config.malformedSym)) ∧
    slotOfTokens (ascii "LDB") operand = .ok (.instr (.ldb Config.malformedSym)) ∧
    slotOfTokens (ascii "ST") operand = .ok (.instr (.st Config.malformedSym))) ∧
  (∀ operand : Option (List Byte), operand.bind intToken = none →
    slotOfTokens (ascii "LDI") operand = .ok (.instr (.ldi Config.malformedInt)) ∧
    slotOfTokens (ascii "JMP") operand = .ok (.instr (.jmp Config.malformedInt)) ∧
    slotOfTokens (ascii "JZS") operand = .ok (.instr (.jzs Config.malformedInt)) ∧
    slotOfTokens (ascii "JVS") operand = .ok (.instr (.jvs Config.malformedInt)))

/-! ### The snapshot -/

/-- R70: the lines of the snapshot, and that its numbers are the signed decimal values, without leading zeros. -/
def Obligations.SnapshotLines : Prop :=
  (∀ s : State,
    (snapshotLines s).length = 262 ∧
    (snapshotLines s).take 6 =
      [ascii "Register A: " ++ decimal s.a.toInt, ascii "Register B: " ++ decimal s.b.toInt,
       ascii "Program counter: " ++ decimal s.pc.toInt,
       ascii "Zero bit: " ++ (if s.z then ascii "1" else ascii "0"),
       ascii "Overflow bit: " ++ (if s.v then ascii "1" else ascii "0"), ascii "Current memory:"] ∧
    (∀ p : Addr, (snapshotLines s)[6 + p.toNat]? =
      some (decimal p.toNat ++ ascii ": " ++ wordText (s.mem.read p))) ∧
    snapshot s = (snapshotLines s).flatMap fun line => line ++ [10]) ∧
  (∀ x : Word,
    intToken (decimal x.toInt) = some x.toInt ∧
    ((decimal x.toInt).head? = some 45 ↔ x.toInt < 0) ∧
    (0 ≤ x.toInt → ∀ c ∈ decimal x.toInt, 48 ≤ c.toNat ∧ c.toNat ≤ 57) ∧
    ((decimal x.toInt).head? = some 48 → decimal x.toInt = ascii "0") ∧
    (x.toInt < 0 → (decimal x.toInt)[1]? ≠ some 48))

/-- The text of each slot (30_encoding.md section 5). The spec marks the rows other than those of `null`, `LDI v`, `DEC c`
and `c: v` as its own inference, and the form of a DEC slot as its own decision. -/
def Obligations.SlotTexts : Prop :=
  slotText .empty = ascii "null" ∧
  (∀ (c : SymCode) (x : Word),
    slotText (.instr (.dec c false x)) = ascii "DEC " ++ [c] ∧
    slotText (.instr (.dec c true x)) = [c] ++ ascii ": " ++ decimal x.toInt ∧
    slotText (.instr (.lda c)) = ascii "LDA " ++ [c] ∧
    slotText (.instr (.ldb c)) = ascii "LDB " ++ [c] ∧
    slotText (.instr (.st c)) = ascii "ST " ++ [c] ∧
    slotText (.instr (.ldi x)) = ascii "LDI " ++ decimal x.toInt ∧
    slotText (.instr (.jmp x)) = ascii "JMP " ++ decimal x.toInt ∧
    slotText (.instr (.jzs x)) = ascii "JZS " ++ decimal x.toInt ∧
    slotText (.instr (.jvs x)) = ascii "JVS " ++ decimal x.toInt) ∧
  slotText (.instr .xch) = ascii "XCH" ∧
  slotText (.instr .add) = ascii "ADD" ∧
  slotText (.instr .hlt) = ascii "HLT"

/-! ### The control state machine -/

/-- A step request in IDLE ends in IDLE after one step of the core, with the step's result on the ports. `load` is low at
the edge that takes up the request and free after it: section 5 samples it "in IDLE and at the FETCH of each step of a
run", so not in a single step (40_fetch_execute.md section 5; the model's deduction, log entry 16; the clocking is the
model's, log entry 14, and so is that a request raised while the core is busy is not remembered, log entry 21). -/
def Obligations.ControlServesAStep : Prop :=
  ∀ (s : State) (i₁ i₂ i₃ : PortsIn), i₁.load = false → i₁.stepReq = true → i₁.runReq = false →
    (Chip.mk s .idle).clocks (if executed (step s) then [i₁, i₂, i₃] else [i₁, i₂]) =
      (Chip.mk (stateAfter s (step s)) .idle, pulse (reportOf (step s)))

/-- A run request in IDLE ends in IDLE exactly as the run of the core ends, with one `done` pulse that shows its last
result, whatever the other inputs are while `load` stays low; a run of the core that does not end gives no `done` pulse
(40_fetch_execute.md section 5; log entry 14, and log entry 21 for the requests raised while the core is busy, which are
not remembered). -/
def Obligations.ControlServesARun : Prop :=
  ∀ (s : State) (i₁ : PortsIn), i₁.load = false → i₁.runReq = true → i₁.stepReq = false →
    (∀ e, RunsTo s e → ∃ n, ∀ rest : List PortsIn, rest.length = n → (∀ i ∈ rest, i.load = false) →
      (Chip.mk s .idle).clocks (i₁ :: rest) = (Chip.mk e.state .idle, pulse e.report)) ∧
    (RunsForever s → ∀ rest : List PortsIn, (∀ i ∈ rest, i.load = false) →
      ((Chip.mk s .idle).clocks (i₁ :: rest)).2 = [])

/-- While `load` is high the core is in reset and the load port fills memory, slots not written being empty; when it goes
low the core waits in IDLE with that image. The load is taken in IDLE and at the FETCH of each step of a run, which gives
no `done` pulse (40_fetch_execute.md section 5; log entry 14 for the clocking, log entry 16 for the pulse). In LOAD itself,
where power-on starts with no slot written, it goes on from the words written so far. -/
def Obligations.ControlLoads : Prop :=
  (∀ (s : State) (ctl : Control) (first low : PortsIn) (rest : List PortsIn), ctl = .idle ∨ ctl = .fetch true →
    first.load = true → (∀ i ∈ rest, i.load = true) → low.load = false →
    (Chip.mk s ctl).clocks (first :: rest) =
      (Chip.mk { State.reset with mem := portImage [] (first :: rest) } .load, []) ∧
    (Chip.mk s ctl).clocks (first :: rest ++ [low]) =
      (Chip.mk { State.reset with mem := portImage [] (first :: rest) } .idle, [])) ∧
  (∀ (m : Memory) (low : PortsIn) (edges : List PortsIn), (∀ i ∈ edges, i.load = true) → low.load = false →
    (Chip.mk { State.reset with mem := m } .load).clocks edges =
      (Chip.mk { State.reset with mem := portImage m edges } .load, []) ∧
    (Chip.mk { State.reset with mem := m } .load).clocks (edges ++ [low]) =
      (Chip.mk { State.reset with mem := portImage m edges } .idle, [])) ∧
  (∀ low : PortsIn, low.load = false → Chip.powerOn.clocks [low] = (Chip.mk State.reset .idle, []))
end

