-- ==== Sys2Proof/Laws/Decode.lean ====
section
/-! SUPPORT. The fields of a packed slot word, and what a field write leaves of the other fields. -/

namespace Sys2Proof

variable (o : Bool) (n : BitVec 4) (d : Bool) (c : SymCode) (x : Word) (w : SlotWord)

@[simp] theorem occF_packSlot : occF (packSlot o n d c x) = o := by
  simp only [occF, packSlot, BitVec.getLsbD_append, BitVec.getLsbD_ofBool]
  simp

@[simp] theorem dclF_packSlot : dclF (packSlot o n d c x) = d := by
  simp only [dclF, packSlot, BitVec.getLsbD_append, BitVec.getLsbD_ofBool]
  simp

@[simp] theorem opcF_packSlot : opcF (packSlot o n d c x) = n := by
  ext i hi
  simp only [opcF, packSlot, BitVec.getElem_extractLsb', BitVec.getLsbD_append]
  have h1 : ¬ 39 + i < 30 := by omega
  have h2 : ¬ 39 + i - 30 < 8 := by omega
  have h3 : ¬ 39 + i - 30 - 8 < 1 := by omega
  have h4 : 39 + i - 30 - 8 - 1 = i := by omega
  simp [h1, h2, h3, h4, hi]

@[simp] theorem symF_packSlot : symF (packSlot o n d c x) = c := by
  ext i hi
  simp only [symF, packSlot, BitVec.getElem_extractLsb', BitVec.getLsbD_append]
  have h1 : ¬ 30 + i < 30 := by omega
  have h2 : 30 + i - 30 = i := by omega
  simp [h2, hi]

@[simp] theorem valF_packSlot : valF (packSlot o n d c x) = x := by
  ext i hi
  simp only [valF, packSlot, BitVec.getElem_extractLsb', BitVec.getLsbD_append]
  simp [hi]

/-- A slot word is its five fields. -/
theorem packSlot_fields : packSlot (occF w) (opcF w) (dclF w) (symF w) (valF w) = w := by
  ext i hi
  rw [← BitVec.getLsbD_eq_getElem, ← BitVec.getLsbD_eq_getElem]
  simp only [packSlot, occF, opcF, dclF, symF, valF, BitVec.getLsbD_append, BitVec.getLsbD_extractLsb',
    BitVec.getLsbD_ofBool]
  split
  · next h => simp [h]
  · next h1 =>
    split
    · next h2 => have e : 30 + (i - 30) = i := by omega
                 simp [h2, e]
    · next h2 =>
      split
      · next h3 => have e : i = 38 := by omega
                   subst e; simp
      · next h3 =>
        split
        · next h4 => have e : 39 + (i - 30 - 8 - 1) = i := by omega
                     simp [h4, e]
        · next h4 => have e : i = 43 := by omega
                     subst e; simp

/-- A slot word as a number, from its fields (R65). -/
theorem toNat_packSlot : (packSlot o n d c x).toNat =
    o.toNat * 2 ^ 43 + n.toNat * 2 ^ 39 + d.toNat * 2 ^ 38 + c.toNat * 2 ^ 30 + x.toNat := by
  have join : ∀ {i k : Nat} (a : Nat) (b : BitVec k), i = k → a <<< i ||| b.toNat = a * 2 ^ i + b.toNat := by
    intro i k a b h
    subst h
    rw [← Nat.shiftLeft_add_eq_or_of_lt b.isLt, Nat.shiftLeft_eq]
  unfold packSlot
  simp only [BitVec.toNat_append]
  rw [join _ x rfl, join _ c rfl, join _ (BitVec.ofBool d) rfl, join _ n rfl]
  simp only [BitVec.toNat_ofBool]
  omega

/-- Two slot words with the same fields are the same word. -/
theorem eq_of_fields {w w' : SlotWord} (ho : occF w = occF w') (hn : opcF w = opcF w') (hd : dclF w = dclF w')
    (hc : symF w = symF w') (hx : valF w = valF w') : w = w' := by
  rw [← packSlot_fields w, ← packSlot_fields w', ho, hn, hd, hc, hx]

@[simp] theorem occF_withVal : occF (withVal w x) = occF w := by simp [withVal]
@[simp] theorem opcF_withVal : opcF (withVal w x) = opcF w := by simp [withVal]
@[simp] theorem dclF_withVal : dclF (withVal w x) = dclF w := by simp [withVal]
@[simp] theorem symF_withVal : symF (withVal w x) = symF w := by simp [withVal]
@[simp] theorem valF_withVal : valF (withVal w x) = x := by simp [withVal]
@[simp] theorem occF_withDcl : occF (withDcl w d) = occF w := by simp [withDcl]
@[simp] theorem opcF_withDcl : opcF (withDcl w d) = opcF w := by simp [withDcl]
@[simp] theorem dclF_withDcl : dclF (withDcl w d) = d := by simp [withDcl]
@[simp] theorem symF_withDcl : symF (withDcl w d) = symF w := by simp [withDcl]
@[simp] theorem valF_withDcl : valF (withDcl w d) = valF w := by simp [withDcl]

/-- The OPC field of an encoded instruction is its opcode number (R52). -/
theorem opcF_encode (i : Instr) : opcF (encode i) = i.opcode := by
  cases i <;> simp [encode, Instr.opcode]

/-- The word of an instruction has its OCC bit set. -/
theorem occF_encode (i : Instr) : occF (encode i) = true := by
  cases i <;> simp [encode]

/-- A word decodes to a DEC slot exactly when its OCC bit is set and its OPC field is 0 (R66). -/
theorem decodeSlot_dec_iff (w : SlotWord) (c : SymCode) (d : Bool) (x : Word) :
    decodeSlot w = .ok (.instr (.dec c d x)) ↔ w = packSlot true 0 d c x := by
  constructor
  · intro h
    unfold decodeSlot at h
    split at h
    · split at h <;> simp at h
    · next ho =>
      split at h <;>
        first
        | (simp only [onlySym, onlyVal, noField] at h; split at h <;> simp at h)
        | contradiction
        | skip
      next hn =>
        simp only [Except.ok.injEq, Slot.instr.injEq, Instr.dec.injEq] at h
        obtain ⟨rfl, rfl, rfl⟩ := h
        have hn' : opcF w = 0 := BitVec.eq_of_toNat_eq hn
        have ho' : occF w = true := by simpa using ho
        conv_lhs => rw [← packSlot_fields w, hn', ho']
  · rintro rfl
    simp [decodeSlot]

end Sys2Proof
end

