-- ==== Sys2Proof/Laws/State.lean ====
section
/-! SUPPORT. One lemma per field per update of the state, all true by definition. -/

namespace Sys2Proof.Machine

variable (s : State)

/-! ### advance -/

@[simp] theorem State.advance_a : (s.advance).a = s.a := rfl
@[simp] theorem State.advance_b : (s.advance).b = s.b := rfl
@[simp] theorem State.advance_z : (s.advance).z = s.z := rfl
@[simp] theorem State.advance_v : (s.advance).v = s.v := rfl
@[simp] theorem State.advance_pc : (s.advance).pc = s.pc + 1 := rfl
@[simp] theorem State.advance_mem : (s.advance).mem = s.mem := rfl
@[simp] theorem State.advance_sym : (s.advance).sym = s.sym := rfl
@[simp] theorem State.advance_report : (s.advance).report = s.report := rfl

/-! ### jump -/

@[simp] theorem State.jump_a (d : Word) : (s.jump d).a = s.a := rfl
@[simp] theorem State.jump_b (d : Word) : (s.jump d).b = s.b := rfl
@[simp] theorem State.jump_z (d : Word) : (s.jump d).z = s.z := rfl
@[simp] theorem State.jump_v (d : Word) : (s.jump d).v = s.v := rfl
@[simp] theorem State.jump_pc (d : Word) : (s.jump d).pc = d := rfl
@[simp] theorem State.jump_mem (d : Word) : (s.jump d).mem = s.mem := rfl
@[simp] theorem State.jump_sym (d : Word) : (s.jump d).sym = s.sym := rfl
@[simp] theorem State.jump_report (d : Word) : (s.jump d).report = s.report := rfl

/-! ### setA -/

@[simp] theorem State.setA_a (x : Word) : (s.setA x).a = x := rfl
@[simp] theorem State.setA_b (x : Word) : (s.setA x).b = s.b := rfl
@[simp] theorem State.setA_z (x : Word) : (s.setA x).z = s.z := rfl
@[simp] theorem State.setA_v (x : Word) : (s.setA x).v = s.v := rfl
@[simp] theorem State.setA_pc (x : Word) : (s.setA x).pc = s.pc := rfl
@[simp] theorem State.setA_mem (x : Word) : (s.setA x).mem = s.mem := rfl
@[simp] theorem State.setA_sym (x : Word) : (s.setA x).sym = s.sym := rfl
@[simp] theorem State.setA_report (x : Word) : (s.setA x).report = s.report := rfl

/-! ### setB -/

@[simp] theorem State.setB_a (x : Word) : (s.setB x).a = s.a := rfl
@[simp] theorem State.setB_b (x : Word) : (s.setB x).b = x := rfl
@[simp] theorem State.setB_z (x : Word) : (s.setB x).z = s.z := rfl
@[simp] theorem State.setB_v (x : Word) : (s.setB x).v = s.v := rfl
@[simp] theorem State.setB_pc (x : Word) : (s.setB x).pc = s.pc := rfl
@[simp] theorem State.setB_mem (x : Word) : (s.setB x).mem = s.mem := rfl
@[simp] theorem State.setB_sym (x : Word) : (s.setB x).sym = s.sym := rfl
@[simp] theorem State.setB_report (x : Word) : (s.setB x).report = s.report := rfl

/-! ### memWrite -/

@[simp] theorem State.memWrite_a (p : Addr) (x : Word) : (s.memWrite p x).a = s.a := rfl
@[simp] theorem State.memWrite_b (p : Addr) (x : Word) : (s.memWrite p x).b = s.b := rfl
@[simp] theorem State.memWrite_z (p : Addr) (x : Word) : (s.memWrite p x).z = s.z := rfl
@[simp] theorem State.memWrite_v (p : Addr) (x : Word) : (s.memWrite p x).v = s.v := rfl
@[simp] theorem State.memWrite_pc (p : Addr) (x : Word) : (s.memWrite p x).pc = s.pc := rfl
@[simp] theorem State.memWrite_mem (p : Addr) (x : Word) : (s.memWrite p x).mem = s.mem.write p (withVal (s.mem.read p) x) := rfl
@[simp] theorem State.memWrite_sym (p : Addr) (x : Word) : (s.memWrite p x).sym = s.sym := rfl
@[simp] theorem State.memWrite_report (p : Addr) (x : Word) : (s.memWrite p x).report = s.report := rfl

/-! ### declareOwn -/

@[simp] theorem State.declareOwn_a (p : Addr) : (s.declareOwn p).a = s.a := rfl
@[simp] theorem State.declareOwn_b (p : Addr) : (s.declareOwn p).b = s.b := rfl
@[simp] theorem State.declareOwn_z (p : Addr) : (s.declareOwn p).z = s.z := rfl
@[simp] theorem State.declareOwn_v (p : Addr) : (s.declareOwn p).v = s.v := rfl
@[simp] theorem State.declareOwn_pc (p : Addr) : (s.declareOwn p).pc = s.pc := rfl
@[simp] theorem State.declareOwn_mem (p : Addr) : (s.declareOwn p).mem = s.mem.write p (withVal (withDcl (s.mem.read p) true) 0) := rfl
@[simp] theorem State.declareOwn_sym (p : Addr) : (s.declareOwn p).sym = s.sym := rfl
@[simp] theorem State.declareOwn_report (p : Addr) : (s.declareOwn p).report = s.report := rfl

/-! ### bindName -/

@[simp] theorem State.bindName_a (c : SymCode) (p : Addr) : (s.bindName c p).a = s.a := rfl
@[simp] theorem State.bindName_b (c : SymCode) (p : Addr) : (s.bindName c p).b = s.b := rfl
@[simp] theorem State.bindName_z (c : SymCode) (p : Addr) : (s.bindName c p).z = s.z := rfl
@[simp] theorem State.bindName_v (c : SymCode) (p : Addr) : (s.bindName c p).v = s.v := rfl
@[simp] theorem State.bindName_pc (c : SymCode) (p : Addr) : (s.bindName c p).pc = s.pc := rfl
@[simp] theorem State.bindName_mem (c : SymCode) (p : Addr) : (s.bindName c p).mem = s.mem := rfl
@[simp] theorem State.bindName_sym (c : SymCode) (p : Addr) : (s.bindName c p).sym = s.sym.bind c p := rfl
@[simp] theorem State.bindName_report (c : SymCode) (p : Addr) : (s.bindName c p).report = s.report := rfl

/-! ### retire -/

@[simp] theorem State.retire_a (diag : Bool) : (s.retire diag).a = s.a := rfl
@[simp] theorem State.retire_b (diag : Bool) : (s.retire diag).b = s.b := rfl
@[simp] theorem State.retire_z (diag : Bool) : (s.retire diag).z = s.z := rfl
@[simp] theorem State.retire_v (diag : Bool) : (s.retire diag).v = s.v := rfl
@[simp] theorem State.retire_pc (diag : Bool) : (s.retire diag).pc = s.pc := rfl
@[simp] theorem State.retire_mem (diag : Bool) : (s.retire diag).mem = s.mem := rfl
@[simp] theorem State.retire_sym (diag : Bool) : (s.retire diag).sym = s.sym := rfl
@[simp] theorem State.retire_report (diag : Bool) : (s.retire diag).report = some ⟨.executed, diag⟩ := rfl

/-! ### stop -/

@[simp] theorem State.stop_a (r : StepResult) : (s.stop r).a = s.a := rfl
@[simp] theorem State.stop_b (r : StepResult) : (s.stop r).b = s.b := rfl
@[simp] theorem State.stop_z (r : StepResult) : (s.stop r).z = s.z := rfl
@[simp] theorem State.stop_v (r : StepResult) : (s.stop r).v = s.v := rfl
@[simp] theorem State.stop_pc (r : StepResult) : (s.stop r).pc = s.pc := rfl
@[simp] theorem State.stop_mem (r : StepResult) : (s.stop r).mem = s.mem := rfl
@[simp] theorem State.stop_sym (r : StepResult) : (s.stop r).sym = s.sym := rfl
@[simp] theorem State.stop_report (r : StepResult) : (s.stop r).report = some ⟨r, false⟩ := rfl

/-! ### setAlu -/

@[simp] theorem State.setAlu_a (r : AluResult) : (s.setAlu r).a = r.sum := rfl
@[simp] theorem State.setAlu_b (r : AluResult) : (s.setAlu r).b = s.b := rfl
@[simp] theorem State.setAlu_z (r : AluResult) : (s.setAlu r).z = r.zero := rfl
@[simp] theorem State.setAlu_v (r : AluResult) : (s.setAlu r).v = r.overflow := rfl
@[simp] theorem State.setAlu_pc (r : AluResult) : (s.setAlu r).pc = s.pc := rfl
@[simp] theorem State.setAlu_mem (r : AluResult) : (s.setAlu r).mem = s.mem := rfl
@[simp] theorem State.setAlu_sym (r : AluResult) : (s.setAlu r).sym = s.sym := rfl
@[simp] theorem State.setAlu_report (r : AluResult) : (s.setAlu r).report = s.report := rfl

/-! ### clearMemory -/

@[simp] theorem State.clearMemory_a : (s.clearMemory).a = s.a := rfl
@[simp] theorem State.clearMemory_b : (s.clearMemory).b = s.b := rfl
@[simp] theorem State.clearMemory_z : (s.clearMemory).z = s.z := rfl
@[simp] theorem State.clearMemory_v : (s.clearMemory).v = s.v := rfl
@[simp] theorem State.clearMemory_pc : (s.clearMemory).pc = s.pc := rfl
@[simp] theorem State.clearMemory_mem : (s.clearMemory).mem = [] := rfl
@[simp] theorem State.clearMemory_sym : (s.clearMemory).sym = s.sym := rfl
@[simp] theorem State.clearMemory_report : (s.clearMemory).report = s.report := rfl

/-! ### clearSymbols -/

@[simp] theorem State.clearSymbols_a : (s.clearSymbols).a = s.a := rfl
@[simp] theorem State.clearSymbols_b : (s.clearSymbols).b = s.b := rfl
@[simp] theorem State.clearSymbols_z : (s.clearSymbols).z = s.z := rfl
@[simp] theorem State.clearSymbols_v : (s.clearSymbols).v = s.v := rfl
@[simp] theorem State.clearSymbols_pc : (s.clearSymbols).pc = s.pc := rfl
@[simp] theorem State.clearSymbols_mem : (s.clearSymbols).mem = s.mem := rfl
@[simp] theorem State.clearSymbols_sym : (s.clearSymbols).sym = [] := rfl
@[simp] theorem State.clearSymbols_report : (s.clearSymbols).report = s.report := rfl

/-! ### clearRegisters -/

@[simp] theorem State.clearRegisters_a : (s.clearRegisters).a = Config.resetA := rfl
@[simp] theorem State.clearRegisters_b : (s.clearRegisters).b = Config.resetB := rfl
@[simp] theorem State.clearRegisters_z : (s.clearRegisters).z = false := rfl
@[simp] theorem State.clearRegisters_v : (s.clearRegisters).v = false := rfl
@[simp] theorem State.clearRegisters_pc : (s.clearRegisters).pc = 0 := rfl
@[simp] theorem State.clearRegisters_mem : (s.clearRegisters).mem = s.mem := rfl
@[simp] theorem State.clearRegisters_sym : (s.clearRegisters).sym = s.sym := rfl
@[simp] theorem State.clearRegisters_report : (s.clearRegisters).report = none := rfl

/-! ### loadPortWrite -/

@[simp] theorem State.loadPortWrite_a (addr : Addr) (word : SlotWord) : (s.loadPortWrite addr word).a = s.a := rfl
@[simp] theorem State.loadPortWrite_b (addr : Addr) (word : SlotWord) : (s.loadPortWrite addr word).b = s.b := rfl
@[simp] theorem State.loadPortWrite_z (addr : Addr) (word : SlotWord) : (s.loadPortWrite addr word).z = s.z := rfl
@[simp] theorem State.loadPortWrite_v (addr : Addr) (word : SlotWord) : (s.loadPortWrite addr word).v = s.v := rfl
@[simp] theorem State.loadPortWrite_pc (addr : Addr) (word : SlotWord) : (s.loadPortWrite addr word).pc = s.pc := rfl
@[simp] theorem State.loadPortWrite_mem (addr : Addr) (word : SlotWord) : (s.loadPortWrite addr word).mem = s.mem.write addr word := rfl
@[simp] theorem State.loadPortWrite_sym (addr : Addr) (word : SlotWord) : (s.loadPortWrite addr word).sym = s.sym := rfl
@[simp] theorem State.loadPortWrite_report (addr : Addr) (word : SlotWord) : (s.loadPortWrite addr word).report = s.report := rfl

/-! ### arch -/

@[simp] theorem State.arch_a : (s.arch).a = s.a := rfl
@[simp] theorem State.arch_b : (s.arch).b = s.b := rfl
@[simp] theorem State.arch_z : (s.arch).z = s.z := rfl
@[simp] theorem State.arch_v : (s.arch).v = s.v := rfl
@[simp] theorem State.arch_pc : (s.arch).pc = s.pc := rfl
@[simp] theorem State.arch_mem : (s.arch).mem = s.mem := rfl
@[simp] theorem State.arch_sym : (s.arch).sym = s.sym := rfl
@[simp] theorem State.arch_report : (s.arch).report = none := rfl

end Sys2Proof.Machine
end

