-- ==== Sys2Proof/Laws/Store.lean ====
section
/-! SUPPORT. The laws of the two tables: read after write, the frame of a write, and the canonical form every operation
keeps. -/

namespace Sys2Proof.Machine

variable {α : Type}

/-! ### Association lists -/

@[simp] theorem Store.find_nil (k : Nat) : Store.find k ([] : List (Nat × α)) = none := rfl

theorem Store.find_cons (k j : Nat) (x : α) (rest : List (Nat × α)) :
    Store.find k ((j, x) :: rest) = if j = k then some x else Store.find k rest := rfl

theorem Store.find_put_same (k : Nat) (x : α) (l : List (Nat × α)) : Store.find k (Store.put k x l) = some x := by
  induction l with
  | nil => simp [Store.put, Store.find]
  | cons e rest ih =>
    obtain ⟨j, y⟩ := e
    simp only [Store.put]
    split
    · simp [Store.find]
    · split
      · simp [Store.find]
      · simp [Store.find, *]

theorem Store.find_put_other {k k' : Nat} (h : k' ≠ k) (x : α) (l : List (Nat × α)) :
    Store.find k' (Store.put k x l) = Store.find k' l := by
  induction l with
  | nil => simp [Store.put, Store.find, h.symm]
  | cons e rest ih =>
    obtain ⟨j, y⟩ := e
    simp only [Store.put]
    split
    · simp [Store.find, h.symm]
    · split
      · next hj => subst hj; simp [Store.find, h.symm]
      · simp [Store.find, ih]

theorem Store.find_erase_same (k : Nat) (l : List (Nat × α)) : Store.find k (Store.erase k l) = none := by
  induction l with
  | nil => rfl
  | cons e rest ih =>
    obtain ⟨j, y⟩ := e
    simp only [Store.erase]
    split
    · exact ih
    · simp [Store.find, *]

theorem Store.find_erase_other {k k' : Nat} (h : k' ≠ k) (l : List (Nat × α)) :
    Store.find k' (Store.erase k l) = Store.find k' l := by
  induction l with
  | nil => rfl
  | cons e rest ih =>
    obtain ⟨j, y⟩ := e
    simp only [Store.erase]
    split
    · next hj => subst hj; simp [Store.find, h.symm, ih]
    · simp [Store.find, ih]

theorem Store.rising_of_le {lo lo' : Nat} (h : lo' ≤ lo) {l : List (Nat × α)} (hl : Store.rising lo l = true) :
    Store.rising lo' l = true := by
  cases l with
  | nil => rfl
  | cons e rest =>
    simp only [Store.rising, Bool.and_eq_true, decide_eq_true_eq] at hl ⊢
    exact ⟨h.trans hl.1, hl.2⟩

theorem Store.rising_put {lo k : Nat} (hk : lo ≤ k) (x : α) {l : List (Nat × α)} (hl : Store.rising lo l = true) :
    Store.rising lo (Store.put k x l) = true := by
  induction l generalizing lo with
  | nil => simpa [Store.put, Store.rising] using hk
  | cons e rest ih =>
    obtain ⟨j, y⟩ := e
    simp only [Store.rising, Bool.and_eq_true, decide_eq_true_eq] at hl
    simp only [Store.put]
    split
    · next hkj => simp [Store.rising, hk, hl.2]; omega
    · split
      · next hjk => subst hjk; simp [Store.rising, hk, hl.2]
      · next h1 h2 => simp [Store.rising, hl.1, ih (lo := j + 1) (by omega) hl.2]

theorem Store.rising_erase {lo : Nat} (k : Nat) {l : List (Nat × α)} (hl : Store.rising lo l = true) :
    Store.rising lo (Store.erase k l) = true := by
  induction l generalizing lo with
  | nil => rfl
  | cons e rest ih =>
    obtain ⟨j, y⟩ := e
    simp only [Store.rising, Bool.and_eq_true, decide_eq_true_eq] at hl
    simp only [Store.erase]
    split
    · exact Store.rising_of_le (by omega) (ih hl.2)
    · simp [Store.rising, hl.1, ih hl.2]

theorem Store.mem_put {k : Nat} {x : α} {e : Nat × α} {l : List (Nat × α)} (h : e ∈ Store.put k x l) :
    e = (k, x) ∨ e ∈ l := by
  induction l with
  | nil => simpa [Store.put] using h
  | cons f rest ih =>
    obtain ⟨j, y⟩ := f
    simp only [Store.put] at h
    split at h
    · simpa using h
    · split at h
      · rcases List.mem_cons.mp h with h | h
        · exact .inl h
        · exact .inr (List.mem_cons_of_mem _ h)
      · rcases List.mem_cons.mp h with h | h
        · exact .inr (h ▸ List.mem_cons_self)
        · exact (ih h).imp_right (List.mem_cons_of_mem _)

theorem Store.mem_erase {k : Nat} {e : Nat × α} {l : List (Nat × α)} (h : e ∈ Store.erase k l) : e ∈ l := by
  induction l with
  | nil => exact h
  | cons f rest ih =>
    obtain ⟨j, y⟩ := f
    simp only [Store.erase] at h
    split at h
    · exact List.mem_cons_of_mem _ (ih h)
    · rcases List.mem_cons.mp h with h | h
      · exact h ▸ List.mem_cons_self
      · exact List.mem_cons_of_mem _ (ih h)

/-- Two codes or addresses of 8 bits are told apart by their numbers. -/
theorem toNat_ne_of_ne {p q : BitVec 8} (h : q ≠ p) : q.toNat ≠ p.toNat := fun e => h (BitVec.eq_of_toNat_eq e)

/-! ### Memory -/

@[simp] theorem Memory.read_nil (p : Addr) : Memory.read [] p = Memory.unlisted := rfl

@[simp] theorem Memory.read_write_same (m : Memory) (p : Addr) (w : SlotWord) : (m.write p w).read p = w := by
  unfold Memory.write Memory.read
  split
  · next h => simp [Store.find_erase_same, h]
  · simp [Store.find_put_same]

theorem Memory.read_write_other (m : Memory) {p q : Addr} (h : q ≠ p) (w : SlotWord) :
    (m.write p w).read q = m.read q := by
  unfold Memory.write Memory.read
  split
  · rw [Store.find_erase_other (toNat_ne_of_ne h)]
  · rw [Store.find_put_other (toNat_ne_of_ne h)]

/-- Every address after a write, in one equation. -/
theorem Memory.read_write (m : Memory) (p q : Addr) (w : SlotWord) :
    (m.write p w).read q = if q = p then w else m.read q := by
  split
  · next h => subst h; exact Memory.read_write_same m q w
  · next h => exact Memory.read_write_other m h w

theorem Memory.wf_nil : Memory.wf [] = true := rfl

/-- Every write keeps the canonical form. -/
theorem Memory.wf_write {m : Memory} (h : m.wf = true) (p : Addr) (w : SlotWord) : (m.write p w).wf = true := by
  simp only [Memory.wf, Bool.and_eq_true, List.all_eq_true, decide_eq_true_eq, bne_iff_ne, ne_eq] at h ⊢
  unfold Memory.write
  split
  · exact ⟨Store.rising_erase _ h.1, fun e he => h.2 e (Store.mem_erase he)⟩
  · next hw =>
    refine ⟨Store.rising_put (Nat.zero_le _) _ h.1, fun e he => ?_⟩
    rcases Store.mem_put he with rfl | he
    · exact ⟨p.isLt, hw⟩
    · exact h.2 e he

/-- Filling memory from a list of slots keeps the canonical form. -/
theorem Memory.wf_fill {m : Memory} (h : m.wf = true) (p : Nat) (slots : List Slot) : (m.fill p slots).wf = true := by
  induction slots generalizing m p with
  | nil => exact h
  | cons slot rest ih => exact ih (Memory.wf_write h _ _) _

/-! ### The symbol table -/

@[simp] theorem SymbolTable.lookup_nil (c : SymCode) : SymbolTable.lookup [] c = none := rfl

@[simp] theorem SymbolTable.lookup_bind_same (t : SymbolTable) (c : SymCode) (p : Addr) :
    (t.bind c p).lookup c = some p := Store.find_put_same _ _ _

theorem SymbolTable.lookup_bind_other (t : SymbolTable) {c d : SymCode} (h : d ≠ c) (p : Addr) :
    (t.bind c p).lookup d = t.lookup d := Store.find_put_other (toNat_ne_of_ne h) _ _

/-- Every name after a binding, in one equation. -/
theorem SymbolTable.lookup_bind (t : SymbolTable) (c d : SymCode) (p : Addr) :
    (t.bind c p).lookup d = if d = c then some p else t.lookup d := by
  split
  · next h => subst h; exact SymbolTable.lookup_bind_same t d p
  · next h => exact SymbolTable.lookup_bind_other t h p

theorem SymbolTable.wf_nil : SymbolTable.wf [] = true := rfl

/-- Every binding keeps the canonical form. -/
theorem SymbolTable.wf_bind {t : SymbolTable} (h : t.wf = true) (c : SymCode) (p : Addr) : (t.bind c p).wf = true := by
  simp only [SymbolTable.wf, Bool.and_eq_true, List.all_eq_true, decide_eq_true_eq] at h ⊢
  refine ⟨Store.rising_put (Nat.zero_le _) _ h.1, fun e he => ?_⟩
  rcases Store.mem_put he with rfl | he
  · exact c.isLt
  · exact h.2 e he

end Sys2Proof.Machine
end

