-- ==== Sys2Proof/Laws/Loader.lean ====
section
/-! SUPPORT. What the load can do, and what the fill leaves at each address. -/

namespace Sys2Proof.Machine

/-- Everything a load that is not refused can do (R61, R170). -/
theorem State.load_next {s t : State} {lines : List Line} (h : s.load lines = .next t) :
    ∃ slots, assemble (lines.take Config.nSlots) = .ok slots ∧
      t = { State.reset with mem := Memory.fill [] 0 slots } := by
  unfold State.load at h
  split at h
  · next slots hs =>
    injection h with h
    exact ⟨slots, hs, h.symm⟩
  · simp at h

/-- An integer operand is refused for a wide literal only (R58). -/
theorem withInt_error {tok : Option (List Byte)} {mk : Word → Instr} {r : Refusal} (h : withInt tok mk = .error r) :
    r = .literalRange := by
  unfold withInt intOperand at h
  split at h
  · simp at h
  · next e he =>
    split at he
    · split at he
      · simp at he
      · simp_all
    · simp at he

/-- A fill leaves the addresses below its start alone. -/
theorem Memory.read_fill_below (m : Memory) (p : Nat) (slots : List Slot) (q : Addr) (h : q.toNat < p)
    (hp : p + slots.length ≤ 256) : (m.fill p slots).read q = m.read q := by
  induction slots generalizing m p with
  | nil => rfl
  | cons slot rest ih =>
    simp only [List.length_cons] at hp
    rw [Memory.fill, ih _ _ (by omega) (by omega), Memory.read_write_other]
    intro e
    subst e
    simp only [BitVec.toNat_ofNat] at h
    omega

end Sys2Proof.Machine
end

