-- ==== Sys2Proof/Laws/Ops.lean ====
section
/-! SUPPORT. One lemma per shared operation that says all it can do, and what a step and an instruction can do. -/

namespace Sys2Proof.Machine

/-! ### The pc and the fetch -/

theorem slotAddr_eq_some {pc : Word} {p : Addr} :
    slotAddr pc = some p ↔ (0 ≤ pc.toInt ∧ pc.toInt ≤ 255) ∧ p = BitVec.ofNat 8 pc.toNat := by
  unfold slotAddr
  split
  · simp; omega
  · simp [eq_comm]; omega

theorem slotAddr_eq_none {pc : Word} : slotAddr pc = none ↔ ¬ (0 ≤ pc.toInt ∧ pc.toInt ≤ 255) := by
  unfold slotAddr
  split
  · simp; omega
  · simp; omega

theorem State.slotAddr_of_inRange {s : State} (h : s.pcInRange) : slotAddr s.pc = some s.pcSlot :=
  slotAddr_eq_some.mpr ⟨h, rfl⟩

/-- Everything a fetch can find (R80, R81). -/
theorem State.fetch_cases (s : State) :
    (¬ s.pcInRange ∧ s.fetch = .fault .pcRange) ∨
    (s.pcInRange ∧ (∃ e, s.slotAt s.pcSlot = .error e) ∧ s.fetch = .fault .illegalSlot) ∨
    (s.pcInRange ∧ s.slotAt s.pcSlot = .ok .empty ∧ s.fetch = .empty) ∨
    (∃ i, s.pcInRange ∧ s.slotAt s.pcSlot = .ok (.instr i) ∧ s.fetch = .instr i) := by
  by_cases h : s.pcInRange
  · simp only [State.fetch, State.slotAddr_of_inRange h, State.slotAt]
    rcases decodeSlot (s.mem.read s.pcSlot) with e | (_ | i)
    · exact .inr (.inl ⟨h, ⟨e, rfl⟩, rfl⟩)
    · exact .inr (.inr (.inl ⟨h, rfl, rfl⟩))
    · exact .inr (.inr (.inr ⟨i, h, rfl, rfl⟩))
  · exact .inl ⟨h, by simp [State.fetch, slotAddr_eq_none.mpr h]⟩

theorem State.fetch_of_slotAt {s : State} (h : s.pcInRange) {i : Instr} (hi : s.slotAt s.pcSlot = .ok (.instr i)) :
    s.fetch = .instr i := by
  simp only [State.fetch, State.slotAddr_of_inRange h]
  unfold State.slotAt at hi
  rw [hi]

/-! ### The accesses to memory -/

/-- A payload write at a DEC slot: the slot keeps its identifier and its `declared` flag (R35). -/
theorem decode_withVal {w : SlotWord} {c : SymCode} {d : Bool} {x : Word}
    (h : decodeSlot w = .ok (.instr (.dec c d x))) (y : Word) :
    decodeSlot (withVal w y) = .ok (.instr (.dec c d y)) := by
  rw [decodeSlot_dec_iff] at h ⊢
  subst h
  simp [withVal]

/-- DEC's write to its own slot (R36). -/
theorem decode_declare {w : SlotWord} {c : SymCode} {d : Bool} {x : Word}
    (h : decodeSlot w = .ok (.instr (.dec c d x))) :
    decodeSlot (withVal (withDcl w true) 0) = .ok (.instr (.dec c true 0)) := by
  rw [decodeSlot_dec_iff] at h ⊢
  subst h
  simp [withVal, withDcl]

/-- The payload field read at a DEC slot is its payload (R34). -/
theorem memRead_of_slotAt {s : State} {p : Addr} {c : SymCode} {d : Bool} {x : Word}
    (h : s.slotAt p = .ok (.instr (.dec c d x))) : s.memRead p = x := by
  unfold State.slotAt at h
  rw [decodeSlot_dec_iff] at h
  simp [State.memRead, h]

theorem State.slotAt_memWrite_other (s : State) {p q : Addr} (h : q ≠ p) (x : Word) :
    (s.memWrite p x).slotAt q = s.slotAt q := by
  simp [State.slotAt, Memory.read_write_other _ h]

theorem State.slotAt_declareOwn_other (s : State) {p q : Addr} (h : q ≠ p) :
    (s.declareOwn p).slotAt q = s.slotAt q := by
  simp [State.slotAt, Memory.read_write_other _ h]

/-! ### The ALU -/

/-- The low 30 bits of the wrapped sum are those of the exact sum (R132). -/
theorem aluAdd_sum (a b : Word) : (aluAdd a b).sum = a + b := by
  have key : ∀ t : Int, BitVec.ofInt 30 (wrap30 t).1 = BitVec.ofInt 30 t := by
    intro t
    apply BitVec.eq_of_toInt_eq
    rw [BitVec.toInt_ofInt, BitVec.toInt_ofInt]
    unfold wrap30 Config.intMax Config.intMin Config.wrap
    split
    · simp [Int.bmod]
    · split
      · simp [Int.bmod]
      · rfl
  simp only [aluAdd, key, BitVec.ofInt_add, BitVec.ofInt_toInt]

/-! ### What an instruction and a step can do -/

/-- Everything the first execution of a DEC can do, from the outcome back (R100). -/
theorem execDec_next {c : SymCode} {d : Bool} {x : Word} {s t : State} (h : execDec c d x s = .next t) :
    (d = true ∧ t = (s.advance).retire false) ∨
    (d = false ∧ s.pcInRange ∧ t = (((s.bindName c s.pcSlot).declareOwn s.pcSlot).advance).retire false) := by
  unfold execDec at h
  split at h
  · next hd => exact .inl ⟨hd, by simpa using h.symm⟩
  · next hd =>
    split at h
    · simp at h
    · next p hp =>
      obtain ⟨hr, rfl⟩ := slotAddr_eq_some.mp hp
      exact .inr ⟨by simpa using hd, hr, by simpa [State.pcSlot] using h.symm⟩

/-- Everything an instruction that gives a next state can have done, one case per row of R25. -/
theorem exec_next_cases {i : Instr} {s t : State} (h : exec i s = .next t) :
    (∃ c x, i = .dec c true x ∧ t = s.advance.retire false) ∨
    (∃ c x, i = .dec c false x ∧ s.pcInRange ∧
      t = (((s.bindName c s.pcSlot).declareOwn s.pcSlot).advance).retire false) ∨
    (∃ c p, i = .lda c ∧ s.sym.lookup c = some p ∧ t = ((s.setA (s.memRead p)).advance).retire false) ∨
    (∃ c p, i = .ldb c ∧ s.sym.lookup c = some p ∧ t = ((s.setB (s.memRead p)).advance).retire false) ∨
    (∃ c p, i = .st c ∧ s.sym.lookup c = some p ∧ t = ((s.memWrite p s.a).advance).retire false) ∨
    (∃ c, (i = .lda c ∨ i = .ldb c ∨ i = .st c) ∧ s.sym.lookup c = none ∧ t = s.advance.retire true) ∨
    (∃ x, i = .ldi x ∧ t = ((s.setA x).advance).retire false) ∨
    (i = .xch ∧ t = (((s.setA s.b).setB s.a).advance).retire false) ∨
    (∃ d, i = .jmp d ∧ t = (s.jump d).retire false) ∨
    (∃ d, i = .jzs d ∧ t = (if s.z then s.jump d else s.advance).retire false) ∨
    (∃ d, i = .jvs d ∧ t = (if s.v then s.jump d else s.advance).retire false) ∨
    (i = .add ∧ t = ((s.setAlu (aluAdd s.a s.b)).advance).retire false) ∨
    (i = .hlt ∧ t = s.stop .stopHalt) := by
  cases i with
  | dec c d x =>
    rcases execDec_next (x := x) h with ⟨rfl, rfl⟩ | ⟨rfl, hr, rfl⟩
    · exact .inl ⟨c, x, rfl, rfl⟩
    · exact .inr (.inl ⟨c, x, rfl, hr, rfl⟩)
  | lda c =>
    simp only [exec, execLda, State.cell] at h
    split at h <;> simp_all
  | ldb c =>
    simp only [exec, execLdb, State.cell] at h
    split at h <;> simp_all
  | st c =>
    simp only [exec, execSt, State.cell] at h
    split at h <;> simp_all
  | ldi x => simp_all [exec, execLdi, immediate]
  | xch => simp_all [exec, execXch]
  | jmp d => simp_all [exec, execJmp, target]
  | jzs d => simp_all [exec, execJzs, target]
  | jvs d => simp_all [exec, execJvs, target]
  | add => simp_all [exec, execAdd]
  | hlt => simp_all [exec, execHlt]

/-- Everything a step that gives a next state can have done (R80). -/
theorem step_next_cases {s t : State} (h : step s = .next t) :
    s.pcInRange ∧
    ((s.slotAt s.pcSlot = .ok .empty ∧ t = s.stop .stopEmpty) ∨
     (∃ i, s.slotAt s.pcSlot = .ok (.instr i) ∧ exec i s = .next t)) := by
  unfold step at h
  rcases s.fetch_cases with ⟨-, hf⟩ | ⟨-, -, hf⟩ | ⟨hr, he, hf⟩ | ⟨i, hr, hi, hf⟩ <;> rw [hf] at h
  · simp at h
  · simp at h
  · exact ⟨hr, .inl ⟨he, by simpa using h.symm⟩⟩
  · exact ⟨hr, .inr ⟨i, hi, h⟩⟩

end Sys2Proof.Machine
end

