-- ==== Sys2Proof/Laws/PerInstr.lean ====
section
/-! SUPPORT. Statements about every instruction as syntax, one lemma per constructor. -/

namespace Sys2Proof.Laws

/-- The slot word of an instruction is occupied and has the instruction's opcode number (R52, R65, R66). -/
def EncodesItsOpcode.Statement (i : Instr) : Prop := occF (encode i) = true ∧ opcF (encode i) = i.opcode

theorem EncodesItsOpcode.dec (sym : SymCode) (declared : Bool) (val : Word) :
    EncodesItsOpcode.Statement (.dec sym declared val) := ⟨occF_encode _, opcF_encode _⟩

theorem EncodesItsOpcode.lda (sym : SymCode) : EncodesItsOpcode.Statement (.lda sym) := ⟨occF_encode _, opcF_encode _⟩

theorem EncodesItsOpcode.ldb (sym : SymCode) : EncodesItsOpcode.Statement (.ldb sym) := ⟨occF_encode _, opcF_encode _⟩

theorem EncodesItsOpcode.ldi (val : Word) : EncodesItsOpcode.Statement (.ldi val) := ⟨occF_encode _, opcF_encode _⟩

theorem EncodesItsOpcode.st (sym : SymCode) : EncodesItsOpcode.Statement (.st sym) := ⟨occF_encode _, opcF_encode _⟩

theorem EncodesItsOpcode.xch : EncodesItsOpcode.Statement .xch := ⟨occF_encode _, opcF_encode _⟩

theorem EncodesItsOpcode.jmp (d : Word) : EncodesItsOpcode.Statement (.jmp d) := ⟨occF_encode _, opcF_encode _⟩

theorem EncodesItsOpcode.jzs (d : Word) : EncodesItsOpcode.Statement (.jzs d) := ⟨occF_encode _, opcF_encode _⟩

theorem EncodesItsOpcode.jvs (d : Word) : EncodesItsOpcode.Statement (.jvs d) := ⟨occF_encode _, opcF_encode _⟩

theorem EncodesItsOpcode.add : EncodesItsOpcode.Statement .add := ⟨occF_encode _, opcF_encode _⟩

theorem EncodesItsOpcode.hlt : EncodesItsOpcode.Statement .hlt := ⟨occF_encode _, opcF_encode _⟩

end Sys2Proof.Laws
end

