-- ==== Sys2Proof/Tests/Slice0.lean ====
section
/-! SUPPORT. Tests. Expected values are those of spec/95_test_vectors.md (T-... ids, E1, E2) or are written out from the
tables of spec/30_encoding.md; the `witness_` theorems meet the hypotheses of the statement they are named after. -/

namespace Sys2Proof.Tests

open Sys2Proof.Machine Sys2Proof.Claims

/-! ### Small states -/

/-- Reset, with the pc at `pc` and the slot word `w` there. -/
def cell (pc : Word) (w : Nat) : State := { State.reset with pc := pc }.withFetchWord 44 w

/-- `s` with the slot word `w` at address `p`. -/
def withWord (s : State) (p : Addr) (w : SlotWord) : State := { s with mem := s.mem.write p w }

/-- The next state of an outcome. -/
def nextOf : Host.Outcome State Fault Refusal → Option State
  | .next t => some t
  | .fault _ => none
  | .refused _ => none

/-- T-LS-1: `x` bound to slot 0, which holds 10; LDA x at 3; A = 3. -/
def lsState (w : Nat) : State :=
  { withWord (cell 3 w) 0 0x85E0000000A#44 with a := 3, b := -8, sym := [(120, 0)] }

/-! ### Well-formedness: one ill-formed term for each check -/

theorem test_wf_refuses_pending_payload : (Instr.dec 120 false 5).wf = false := by decide
theorem test_wf_accepts_declared_payload : (Instr.dec 120 true 5).wf = true := by decide
theorem test_text_refuses_declared : (Instr.dec 120 true 0).hasText = false := by decide
theorem test_text_refuses_payload : (Instr.dec 120 false 1).hasText = false := by decide
theorem test_text_refuses_blank_names :
    ((Instr.dec 32 false 0).hasText, (Instr.lda 9).hasText, (Instr.ldb 13).hasText, (Instr.st 32).hasText) =
      (false, false, false, false) := by decide
theorem test_text_refuses_line_feed_name : (Instr.st 10).hasText = false := by decide
theorem test_text_accepts_name : (Instr.dec 120 false 0).hasText = true := by decide

/-! ### Decoding: words written out from the fields of R65, R66 -/

theorem test_decode_dec : decodeTableWord 44 0b10000101111000000000000000000000000000001010 = some (.dec 120 true 10) := by
  decide
theorem test_decode_dec_extreme : decodeTableWord 44 0x87FE0000000 = some (.dec 255 true (-536870912)) := by decide
theorem test_decode_lda : decodeTableWord 44 0b10001001100001000000000000000000000000000000 = some (.lda 97) := by decide
theorem test_decode_ldb : decodeTableWord 44 0b10010001011010000000000000000000000000000000 = some (.ldb 90) := by decide
theorem test_decode_ldi : decodeTableWord 44 0b10011000000000111111111111111111111111111111 = some (.ldi (-1)) := by decide
theorem test_decode_st : decodeTableWord 44 0b10100000110000000000000000000000000000000000 = some (.st 48) := by decide
theorem test_decode_xch : decodeTableWord 44 0b10101000000000000000000000000000000000000000 = some .xch := by decide
theorem test_decode_jmp : decodeTableWord 44 0b10110000000000000000000000000000000011111111 = some (.jmp 255) := by decide
theorem test_decode_jzs : decodeTableWord 44 0b10111000000000000000000000000000000000001010 = some (.jzs 10) := by decide
theorem test_decode_jvs : decodeTableWord 44 0b11000000000000111111111111111111111111111011 = some (.jvs (-5)) := by decide
theorem test_decode_add : decodeTableWord 44 0b11001000000000000000000000000000000000000000 = some .add := by decide
theorem test_decode_hlt : decodeTableWord 44 0b11010000000000000000000000000000000000000000 = some .hlt := by decide

/-- T-EN-1. -/
theorem test_decode_empty : decodeSlot 0 = .ok .empty := rfl

/-- T-EN-20, T-EN-21. -/
theorem test_illegal_unoccupied :
    decodeSlot 0x00000000001#44 = .error .unoccupiedNotZero ∧ decodeSlot 0x01E00000000#44 = .error .unoccupiedNotZero :=
  ⟨rfl, rfl⟩

/-- T-EN-22, T-EN-23. -/
theorem test_illegal_opcode :
    decodeSlot 0xD8000000000#44 = .error .reservedOpcode ∧ decodeSlot 0xF8000000000#44 = .error .reservedOpcode :=
  ⟨rfl, rfl⟩

/-- T-EN-24 to T-EN-29. -/
theorem test_illegal_field :
    decodeSlot 0xA8000000001#44 = .error .nonzeroField ∧ decodeSlot 0x9C000000000#44 = .error .nonzeroField ∧
    decodeSlot 0x89E00000005#44 = .error .nonzeroField ∧ decodeSlot 0xC8040000000#44 = .error .nonzeroField ∧
    decodeSlot 0xB1E00000000#44 = .error .nonzeroField ∧ decodeSlot 0xD0000000001#44 = .error .nonzeroField :=
  ⟨rfl, rfl, rfl, rfl, rfl, rfl⟩

/-- The encoder on T-EN-3, T-EN-6, T-EN-8, T-EN-10. -/
theorem test_encode :
    encode (.dec 120 true 10) = 0x85E0000000A#44 ∧ encode (.dec 255 true (-536870912)) = 0x87FE0000000#44 ∧
    encode (.ldi (-1)) = 0x9803FFFFFFF#44 ∧ encode (.jvs (-5)) = 0xC003FFFFFFB#44 := by decide

/-! ### The step (section 2.3 of the vectors) -/

/-- T-STEP-1, T-STEP-9. -/
theorem test_step_stops :
    step State.reset = .next { State.reset with report := some ⟨.stopEmpty, false⟩ } ∧
    step (cell 255 0xD0000000000) = .next { cell 255 0xD0000000000 with report := some ⟨.stopHalt, false⟩ } :=
  ⟨rfl, rfl⟩

/-- T-STEP-3 to T-STEP-6. -/
theorem test_step_faults :
    step { State.reset with pc := 256 } = .fault .pcRange ∧ step { State.reset with pc := -1 } = .fault .pcRange ∧
    step { State.reset with pc := 536870911 } = .fault .pcRange ∧
    step (cell 0 0xD8000000000) = .fault .illegalSlot := ⟨rfl, rfl, rfl, rfl⟩

/-! ### One step of each instruction -/

/-- T-DEC-1. -/
theorem test_dec_first :
    (nextOf (step (cell 0 0x81E00000000))).map (fun t => (t.sym, t.mem, t.pc)) =
      some ([(120, 0)], [(0, 0x85E00000000#44)], 1) := by decide

/-- T-DEC-3, with another binding kept. -/
theorem test_dec_last_slot :
    (nextOf (step { cell 255 0x81C80000000 with sym := [(120, 0)] })).map (fun t => (t.sym, t.mem, t.pc)) =
      some ([(114, 255), (120, 0)], [(255, 0x85C80000000#44)], 256) := by decide

/-- T-LS-1, T-LS-2. -/
theorem test_lda :
    (nextOf (step (lsState 0x89E00000000))).map (fun t => (t.a, t.b, t.pc, t.report)) = some (10, -8, 4, ranWith false) ∧
    (nextOf (step { lsState 0x89E00000000 with sym := [] })).map (fun t => (t.a, t.b, t.pc, t.report)) =
      some (3, -8, 4, ranWith true) := by decide

/-- T-LS-3, T-LS-4 in the state of T-LS-1. -/
theorem test_ldb :
    (nextOf (step (lsState 0x91E00000000))).map (fun t => (t.a, t.b, t.pc, t.report)) = some (3, 10, 4, ranWith false) ∧
    (nextOf (step { lsState 0x91E00000000 with sym := [] })).map (fun t => (t.a, t.b, t.pc, t.report)) =
      some (3, -8, 4, ranWith true) := by decide

/-- T-LS-6, T-LS-7. -/
theorem test_ldi :
    (nextOf (step (cell 0 0x98020000000))).map (fun t => (t.a.toInt, t.pc)) = some (-536870912, 1) ∧
    (nextOf (step { cell 0 0x98000000000 with a := 9 })).map (fun t => (t.a, t.z)) = some (0, false) := by decide

/-- T-LS-8 with A = 3, and T-LS-9. -/
theorem test_st :
    (nextOf (step (lsState 0xA1E00000000))).map (fun t => (t.mem, t.a, t.pc)) =
      some ([(0, 0x85E00000003#44), (3, 0xA1E00000000#44)], 3, 4) ∧
    (nextOf (step { lsState 0xA1E00000000 with sym := [] })).map (fun t => (t.mem, t.a, t.pc, t.report)) =
      some ([(0, 0x85E0000000A#44), (3, 0xA1E00000000#44)], 3, 4, ranWith true) := by decide

/-- T-LS-11, the first step; T-STEP-8. -/
theorem test_xch :
    (nextOf (step { cell 0 0xA8000000000 with a := 3, b := -8 })).map (fun t => (t.a, t.b, t.pc)) = some (-8, 3, 1) ∧
    (nextOf (step { cell 255 0xA8000000000 with a := 1, b := 2 })).map (fun t => (t.a, t.b, t.pc)) =
      some (2, 1, 256) := by decide

/-- T-JMP-4, T-JMP-5. -/
theorem test_jmp :
    (nextOf (step (cell 0 0xB0000000100))).map (fun t => t.pc.toInt) = some 256 ∧
    (nextOf (step (cell 1 0xB003FFFFFFF))).map (fun t => t.pc.toInt) = some (-1) := by decide

/-- T-JMP-11, T-JMP-8. -/
theorem test_jzs :
    (nextOf (step { cell 4 0xB8000000006 with z := true })).map (fun t => (t.pc, t.z)) = some (6, true) ∧
    (nextOf (step { cell 8 0xB800000012C with v := true })).map (fun t => t.pc) = some 9 := by decide

/-- T-JMP-9, T-JMP-10. -/
theorem test_jvs :
    (nextOf (step { cell 4 0xC0000000006 with v := true })).map (fun t => (t.pc, t.v)) = some (6, true) ∧
    (nextOf (step { cell 4 0xC0000000006 with z := true })).map (fun t => t.pc) = some 5 := by decide

/-- E2 (T-ADD-4), T-ADD-7. -/
theorem test_add_wraps :
    (nextOf (step { cell 6 0xC8000000000 with a := 536870911, b := 1 })).map
        (fun t => (t.a.toInt, t.b, t.v, t.z, t.pc)) = some (-536870912, 1, true, false, 7) ∧
    (nextOf (step { cell 6 0xC8000000000 with a := -536870912, b := -536870912 })).map (fun t => (t.a, t.v, t.z)) =
      some (0, true, true) := by decide

/-- T-ADD-16, T-ADD-9. -/
theorem test_add_overwrites_flags :
    (nextOf (step { cell 0 0xC8000000000 with a := 1, b := 2, z := true, v := true })).map
        (fun t => (t.a, t.v, t.z)) = some (3, false, false) ∧
    (nextOf (step { cell 0 0xC8000000000 with a := -1, b := 1 })).map (fun t => (t.a, t.v, t.z)) =
      some (0, false, true) := by decide

/-- T-HLT-2. -/
theorem test_hlt :
    (nextOf (step { lsState 0xD0000000000 with z := true, v := true })).map (fun t => (t.arch, t.report)) =
      some ({ lsState 0xD0000000000 with z := true, v := true }, stoppedWith .stopHalt) := by decide

/-- T-ADD-20. -/
theorem test_wrap30 :
    [0, 536870911, 536870912, 1073741822, -536870912, -536870913, -1073741824].map wrap30 =
      [(0, false), (536870911, false), (-536870912, true), (-2, true), (-536870912, false), (536870911, true),
       (0, true)] := by decide

/-! ### The loader (section 2.1 of the vectors) -/

/-- T-LD-1, 4, 6, 7, 8. -/
theorem test_load_lines :
    loadLine (ascii "DEC x") = .ok (.instr (.dec 120 false 0)) ∧ loadLine (ascii "ST 0") = .ok (.instr (.st 48)) ∧
    loadLine (ascii "LDI -1") = .ok (.instr (.ldi (-1))) ∧
    loadLine (ascii "LDI -536870912") = .ok (.instr (.ldi (-536870912))) ∧
    loadLine (ascii "LDI 536870911") = .ok (.instr (.ldi 536870911)) := ⟨rfl, rfl, rfl, rfl, rfl⟩

/-- T-LD-9, T-LD-10: refused; T-LD-13, T-LD-14: not checked. -/
theorem test_load_range :
    loadLine (ascii "LDI 536870912") = .error .literalRange ∧ loadLine (ascii "LDI -536870913") = .error .literalRange ∧
    loadLine (ascii "JMP 300") = .ok (.instr (.jmp 300)) ∧ loadLine (ascii "JMP -1") = .ok (.instr (.jmp (-1))) :=
  ⟨rfl, rfl, rfl, rfl⟩

/-- T-LD-20 to T-LD-28. -/
theorem test_load_blanks :
    loadLine (ascii "  LDI   -5  ") = .ok (.instr (.ldi (-5))) ∧ loadLine (ascii "LDI\t5") = .ok (.instr (.ldi 5)) ∧
    loadLine (ascii "HLT\r") = .ok (.instr .hlt) ∧ loadLine (ascii "LDI +7") = .ok (.instr (.ldi 7)) ∧
    loadLine (ascii "LDI 007") = .ok (.instr (.ldi 7)) ∧ loadLine (ascii "LDI -0") = .ok (.instr (.ldi 0)) ∧
    loadLine (ascii "LDI 10 20") = .ok (.instr (.ldi 10)) ∧ loadLine (ascii "XCH 5") = .ok (.instr .xch) :=
  ⟨rfl, rfl, rfl, rfl, rfl, rfl, rfl, rfl⟩

/-- T-LD-29 to T-LD-35. -/
theorem test_load_empty_lines :
    loadLine [] = .ok .empty ∧ loadLine (ascii "   ") = .ok .empty ∧ loadLine (ascii "hlt") = .ok .empty ∧
    loadLine (ascii "HLT;") = .ok .empty ∧ loadLine (ascii "# set x") = .ok .empty ∧
    loadLine (ascii "SUB") = .ok .empty := ⟨rfl, rfl, rfl, rfl, rfl, rfl⟩

/-- T-LD-37 to T-LD-42. -/
theorem test_load_malformed :
    loadLine (ascii "LDI") = .ok (.instr (.ldi Config.malformedInt)) ∧
    loadLine (ascii "LDI 10abc") = .ok (.instr (.ldi Config.malformedInt)) ∧
    loadLine (ascii "LDI --5") = .ok (.instr (.ldi Config.malformedInt)) ∧
    loadLine (ascii "LDI -") = .ok (.instr (.ldi Config.malformedInt)) ∧
    loadLine (ascii "DEC xy") = .ok (.instr (.dec Config.malformedSym false 0)) ∧
    loadLine (ascii "ST") = .ok (.instr (.st Config.malformedSym)) ∧
    loadLine (ascii "JMP x") = .ok (.instr (.jmp Config.malformedInt)) := ⟨rfl, rfl, rfl, rfl, rfl, rfl, rfl⟩

/-- T-LD-50 from a whole text. -/
theorem test_load_text :
    (nextOf (State.reset.loadText (ascii "LDI 1\nFOO\nHLT"))).map (fun t => (t.mem, t.pc, t.sym)) =
      some ([(0, 0x98000000001#44), (2, 0xD0000000000#44)], 0, []) := by decide

/-- T-LD-53: a final line feed makes no difference to memory. -/
theorem test_load_final_line_feed :
    nextOf (State.reset.loadText (ascii "ADD\n")) = nextOf (State.reset.loadText (ascii "ADD")) := by decide

/-- T-RST-2 in small: nothing of the state before the load survives; T-LD-52 for an unreadable source. -/
theorem test_load_resets :
    (lsState 0x89E00000000).load [ascii "HLT"] = State.reset.load [ascii "HLT"] ∧
    (lsState 0x89E00000000).loadSource none = .next State.reset := ⟨rfl, rfl⟩

/-! ### The snapshot (T-SNAP-1, T-SNAP-2) -/

theorem test_snapshot_state_lines :
    stateLines { State.reset with a := -536870912, b := 536870911, pc := 256, v := true } =
      [ascii "Register A: -536870912", ascii "Register B: 536870911", ascii "Program counter: 256",
       ascii "Zero bit: 0", ascii "Overflow bit: 1", ascii "Current memory:"] := by decide

theorem test_snapshot_memory_lines :
    memoryLine (lsState 0x9803FFFFFFF) 0 = ascii "0: x: 10" ∧ memoryLine (lsState 0x9803FFFFFFF) 3 = ascii "3: LDI -1" ∧
    memoryLine (lsState 0x9803FFFFFFF) 255 = ascii "255: null" ∧
    memoryLine (cell 10 0x81C80000000) 10 = ascii "10: DEC r" := ⟨rfl, rfl, rfl, rfl⟩

/-! ### The ports -/

/-- All inputs low but a step request. -/
def stepPort : PortsIn :=
  { load := false, ldWe := false, ldAddr := 0, ldData := 0, stepReq := true, runReq := false, obsAddr := 0 }

/-- All inputs low but a run request. -/
def runPort : PortsIn := { stepPort with stepReq := false, runReq := true }

/-- All inputs low. -/
def lowPort : PortsIn := { stepPort with stepReq := false }

/-- `load` high with a write of the word `w` to address `p`. -/
def loadPort (p : Addr) (w : SlotWord) : PortsIn := { lowPort with load := true, ldWe := true, ldAddr := p, ldData := w }

/-- Power-on, one word loaded, `load` low, one step: the result code of T-STEP-10 with the pulse, and A on its port. -/
theorem test_ports_load_and_step :
    (((Chip.powerOn.clocks [loadPort 0 0x98000000007#44, lowPort, stepPort, lowPort]).1.clock lowPort).2.done,
      ((Chip.powerOn.clocks [loadPort 0 0x98000000007#44, lowPort, stepPort, lowPort]).1.clock lowPort).2.a,
      ((Chip.powerOn.clocks [loadPort 0 0x98000000007#44, lowPort]).1.clock stepPort).2.obsData) =
      (some (0, false), 7, 0x98000000007#44) := by decide

/-! ### Witnesses: concrete states and operands that meet the hypotheses of each statement -/

/-- R10's state with `x` declared in slot 0 and `LDA x` at the pc, and the invariants of the model. -/
theorem lsState_inv : (lsState 0x89E00000000).Inv := by
  have hread : ∀ p : Addr, (lsState 0x89E00000000).mem.read p =
      if p = 0 then 0x85E0000000A#44 else if p = 3 then 0x89E00000000#44 else 0 := by decide
  have hsym : ∀ c : SymCode, (lsState 0x89E00000000).sym.lookup c = if c = 120 then some 0 else none := by decide
  refine ⟨by decide, fun p => ?_, fun c p h => ?_, fun p c x h => ?_⟩
  · unfold State.slotAt
    rw [hread]
    split
    · exact ⟨.instr (.dec 120 true 10), rfl⟩
    · split
      · exact ⟨.instr (.lda 120), rfl⟩
      · exact ⟨.empty, rfl⟩
  · rw [hsym] at h
    split at h
    · next hc =>
      subst hc
      simp only [Option.some.injEq] at h
      subst h
      exact ⟨10, rfl⟩
    · simp at h
  · unfold State.slotAt at h
    rw [hread, decodeSlot_dec_iff] at h
    have hd := congrArg dclF h
    have ho := congrArg opcF h
    have hf := congrArg occF h
    simp only [dclF_packSlot, opcF_packSlot, occF_packSlot] at hd ho hf
    split at h
    · next hp => simp only [hp, if_true] at hd; exact absurd hd (by decide)
    · next hp =>
      split at h
      · next hq => simp only [hq, if_true] at ho; exact absurd ho (by decide)
      · next hq => simp only [hp, hq, if_false] at hf; exact absurd hf (by decide)

theorem witness_DecodeEncodeAgree : decodeSlot 0x87FE0000000#44 = .ok (.instr (.dec 255 true (-536870912))) := rfl

/-- Clauses 2 and 3. -/
theorem witness_MatchAndMaskRows :
    matchesRow 0x98020000000#44 (.ldi 0) = true ∧ matchesRow 0x98020000000#44 (.ldi 5) = true ∧
    (∀ i : Instr, matchesRow 0 i = false) ∧ (∀ i : Instr, matchesRow 0xD0000000001#44 i = false) :=
  ⟨rfl, rfl, fun i => by cases i <;> simp [matchesRow, Instr.rowMask, Instr.rowMatch],
    fun i => by cases i <;> simp [matchesRow, Instr.rowMask, Instr.rowMatch]⟩

theorem witness_TextAndLoaderAgree :
    (Instr.dec 255 false 0).hasText = true ∧ (Instr.ldi (-536870912)).hasText = true ∧
    (Instr.jmp 536870911).hasText = true := by decide

/-- At both ends of memory. -/
theorem witness_StepRunsDecodedInstruction :
    (cell 0 0x98000000007).pcInRange ∧ (cell 0 0x98000000007).slotAt (cell 0 0x98000000007).pcSlot = .ok (.instr (.ldi 7)) ∧
    (cell 255 0xA8000000000).pcInRange ∧ (cell 255 0xA8000000000).slotAt (cell 255 0xA8000000000).pcSlot = .ok (.instr .xch) :=
  ⟨by decide, rfl, by decide, rfl⟩

theorem witness_PlacedInstructionRuns :
    State.reset.pcInRange ∧ { State.reset with pc := 255 }.pcInRange ∧ (1 : Addr) ≠ State.reset.pcSlot := by decide

/-- One state for each clause. -/
theorem witness_StepResults :
    ¬ { State.reset with pc := 256 }.pcInRange ∧ ¬ { State.reset with pc := -1 }.pcInRange ∧
    ((cell 0 0xD8000000000).pcInRange ∧ (cell 0 0xD8000000000).slotAt 0 = .error .reservedOpcode) ∧
    (State.reset.pcInRange ∧ State.reset.slotAt 0 = .ok .empty) ∧
    ((cell 255 0xD0000000000).pcInRange ∧ (cell 255 0xD0000000000).slotAt 255 = .ok (.instr .hlt)) ∧
    ((cell 255 0xC8000000000).pcInRange ∧ (cell 255 0xC8000000000).slotAt 255 = .ok (.instr .add)) :=
  ⟨by decide, by decide, ⟨by decide, rfl⟩, ⟨by decide, rfl⟩, ⟨by decide, rfl⟩, ⟨by decide, rfl⟩⟩

/-- The four results that are not `Executed`. -/
theorem witness_StopsAndFaultsChangeNothing :
    executed (step State.reset) = false ∧ executed (step (cell 4 0xD0000000000)) = false ∧
    executed (step { State.reset with pc := 256 }) = false ∧ executed (step (cell 0 0xD8000000000)) = false := by decide

/-- The pc leaves memory past slot 255, and by a jump to each side. -/
theorem witness_PcRangeFault :
    ¬ { State.reset with pc := 256 }.pcInRange ∧
    ((cell 255 0xA8000000000).pcInRange ∧
      (nextOf (step (cell 255 0xA8000000000))).map (fun t => decide t.pcInRange) = some false) ∧
    ((cell 0 0xB0000000100).pcInRange ∧
      (nextOf (step (cell 0 0xB0000000100))).map (fun t => decide t.pcInRange) = some false) ∧
    ((cell 0 0xB003FFFFFFF).pcInRange ∧
      (nextOf (step (cell 0 0xB003FFFFFFF))).map (fun t => decide t.pcInRange) = some false) := by decide

/-- A load and a state reached from it. -/
theorem loaded_reached : ∃ s₁ t, State.reset.load [ascii "DEC x", ascii "LDI 10", ascii "ST x"] = .next s₁ ∧
    Reached s₁ t ∧ t.sym.lookup 120 = some 0 ∧ t.pc = 1 :=
  ⟨_, _, rfl, .step .start rfl, rfl, rfl⟩

theorem witness_IllegalSlotFault :
    step (cell 0 0xD8000000000) = .fault .illegalSlot ∧
    ∃ s₁ t, State.reset.load [ascii "DEC x", ascii "LDI 10", ascii "ST x"] = .next s₁ ∧ Reached s₁ t :=
  ⟨rfl, _, _, rfl, .step .start rfl⟩

theorem witness_PcRule :
    (cell 255 0xB8000000000).pcInRange ∧ (cell 255 0xB8000000000).slotAt 255 = .ok (.instr (.jzs 0)) ∧
    (nextOf (step (cell 255 0xB8000000000))).isSome = true := ⟨by decide, rfl, by decide⟩

/-- T-JMP-3, a jump to its own address, and an instruction that advances. -/
theorem witness_OnlySelfJumpKeepsPc :
    (nextOf (step (cell 0 0xB0000000000))).map (fun t => (executed (.next t), t.pc)) = some (true, 0) ∧
    (nextOf (step (cell 255 0xA8000000000))).map (fun t => (executed (.next t), t.pc)) = some (true, 256) := by decide

theorem witness_DiagUnboundOutput :
    reportOf (step (cell 0 0x89E00000000)) = some ⟨.executed, true⟩ ∧
    reportOf (step { State.reset with pc := -1 }) = some ⟨.faultPcRange, false⟩ := by decide

/-- ADD, and an instruction that is neither ADD nor the conditional jump. -/
theorem witness_ZeroFlag :
    (nextOf (exec .add State.reset)).map (fun t => t.z) = some true ∧
    (nextOf (exec .add { State.reset with a := 1 })).map (fun t => t.z) = some false ∧
    (nextOf (exec (.ldi 0) State.reset)).isSome = true ∧ Instr.ldi 0 ≠ .add ∧ (∀ d, Instr.ldi 0 ≠ .jzs d) :=
  ⟨by decide, by decide, by decide, by decide, fun d => nofun⟩

/-- Sums just inside and just outside the range. -/
theorem witness_OverflowFlag :
    (nextOf (exec .add { State.reset with a := 536870911 })).map (fun t => t.v) = some false ∧
    (nextOf (exec .add { State.reset with a := 536870911, b := 1 })).map (fun t => t.v) = some true ∧
    (nextOf (exec .add { State.reset with a := -536870912 })).map (fun t => t.v) = some false ∧
    (nextOf (exec .add { State.reset with a := -536870912, b := -1 })).map (fun t => t.v) = some true ∧
    (nextOf (exec .xch State.reset)).isSome = true ∧ Instr.xch ≠ .add ∧ (∀ d, Instr.xch ≠ .jvs d) :=
  ⟨by decide, by decide, by decide, by decide, by decide, by decide, fun d => nofun⟩

/-- A first DEC, a bound store, an unbound store, a halt. -/
theorem witness_WriteFrames :
    (nextOf (exec (.dec 121 false 0) (lsState 0x81E40000000))).isSome = true ∧
    ((nextOf (exec (.st 120) (lsState 0xA1E00000000))).isSome = true ∧
      (lsState 0xA1E00000000).sym.lookup 120 = some 0) ∧
    ((nextOf (exec (.st 121) (lsState 0xA1E40000000))).isSome = true ∧ (lsState 0xA1E40000000).sym.lookup 121 = none) ∧
    (nextOf (exec .hlt State.reset)).isSome = true ∧ (1 : Addr) ≠ 0 ∧ (121 : SymCode) ≠ 120 := by decide

theorem witness_StepKeepsInv :
    (lsState 0x89E00000000).Inv ∧ ∃ t, step (lsState 0x89E00000000) = .next t := ⟨lsState_inv, _, rfl⟩

theorem witness_StepKeepsFixedParts :
    (lsState 0x89E00000000).Inv ∧ ∃ t, step (lsState 0x89E00000000) = .next t := ⟨lsState_inv, _, rfl⟩

theorem witness_LoadGivesInv : ∃ t, (lsState 0).load [ascii "DEC x", ascii "FOO"] = .next t := ⟨_, rfl⟩

/-- A state with an illegal word and a binding to a slot that is no DEC slot. -/
theorem witness_StepKeepsCanonicalForm :
    (withWord { cell 3 0xA1E00000000 with sym := [(120, 0)] } 0 0xD8000000000#44).canonical = true ∧
    (nextOf (step (withWord { cell 3 0xA1E00000000 with sym := [(120, 0)] } 0 0xD8000000000#44))).isSome = true := by
  decide

theorem witness_CanonicalMemoryIsUnique :
    Memory.wf [(0, 1#44), (255, 2#44)] = true ∧
    ∀ p : Addr, Memory.read [(0, 1#44), (255, 2#44)] p = Memory.read [(0, 1#44), (255, 2#44)] p :=
  ⟨by decide, fun _ => rfl⟩

theorem witness_BoundNamesDeclaredSlot : ∃ s₁ t,
    State.reset.load [ascii "DEC x", ascii "LDI 10", ascii "ST x"] = .next s₁ ∧ Reached s₁ t ∧
      t.sym.lookup 120 = some 0 :=
  ⟨_, _, rfl, .step .start rfl, rfl⟩

/-- A bound name with its slot, and a DEC slot that has not executed. -/
theorem witness_ReachableStateInvariants : ∃ s₁ t,
    State.reset.load [ascii "DEC x", ascii "DEC y"] = .next s₁ ∧ Reached s₁ t ∧ t.sym.lookup 120 = some 0 ∧
      t.slotAt 0 = .ok (.instr (.dec 120 true 0)) ∧ t.slotAt 1 = .ok (.instr (.dec 121 false 0)) :=
  ⟨_, _, rfl, .step .start rfl, rfl, rfl, rfl⟩

theorem witness_WrapThirty :
    ((-1073741824 : Int) ≤ -1073741824 ∧ (-1073741824 : Int) ≤ 1073741822) ∧
    ((-1073741824 : Int) ≤ 1073741822 ∧ (1073741822 : Int) ≤ 1073741822) := by decide

/-- Each range of the sum at its ends. -/
theorem witness_AddLaws :
    (536870910#30).toInt + (1#30).toInt = 2 ^ 29 - 1 ∧ (-536870911#30).toInt + (-1#30).toInt = -2 ^ 29 ∧
    2 ^ 29 - 1 < (536870911#30).toInt + (1#30).toInt ∧ 2 ^ 29 - 1 < (536870911#30).toInt + (536870911#30).toInt ∧
    (-536870912#30).toInt + (-1#30).toInt < -2 ^ 29 ∧ (-536870912#30).toInt + (-536870912#30).toInt < -2 ^ 29 := by
  decide

theorem witness_BothFlagsOnlyAtTheMinimum : ∃ t,
    exec .add { State.reset with a := -536870912, b := -536870912 } = .next t ∧ t.z = true ∧ t.v = true :=
  ⟨_, rfl, rfl, rfl⟩

/-- A pending DEC at each end of memory. -/
theorem witness_DecDeclaresItsName :
    isNameChar 120 = true ∧
    ((cell 0 0x81E00000000).pcInRange ∧
      (cell 0 0x81E00000000).slotAt (cell 0 0x81E00000000).pcSlot = .ok (.instr (.dec 120 false 0))) ∧
    ((cell 255 0x81E00000000).pcInRange ∧
      (cell 255 0x81E00000000).slotAt (cell 255 0x81E00000000).pcSlot = .ok (.instr (.dec 120 false 0))) :=
  ⟨by decide, ⟨by decide, rfl⟩, ⟨by decide, rfl⟩⟩

/-- T-DEC-4. -/
theorem witness_SecondDecRebinds :
    (lsState 0x81E00000000).pcInRange ∧ (0 : Addr) ≠ (lsState 0x81E00000000).pcSlot ∧
    (lsState 0x81E00000000).sym.lookup 120 = some 0 ∧
    (lsState 0x81E00000000).slotAt 0 = .ok (.instr (.dec 120 true 10)) ∧
    (lsState 0x81E00000000).slotAt (lsState 0x81E00000000).pcSlot = .ok (.instr (.dec 120 false 0)) :=
  ⟨by decide, by decide, rfl, rfl, rfl⟩

theorem witness_PayloadReadAndWrite :
    (lsState 0).slotAt 0 = .ok (.instr (.dec 120 true 10)) ∧
    (cell 255 0x81E00000000).slotAt 255 = .ok (.instr (.dec 120 false 0)) := ⟨rfl, rfl⟩

/-- LDA, LDB and ST: a name of a text, a binding to a DEC slot, an unbound name. -/
theorem bound_and_unbound :
    isNameChar 255 = true ∧ (lsState 0).sym.lookup 120 = some 0 ∧
    (lsState 0).slotAt 0 = .ok (.instr (.dec 120 true 10)) ∧ (lsState 0).sym.lookup 121 = none :=
  ⟨by decide, rfl, rfl, rfl⟩

theorem witness_LdaLoadsA : isNameChar 255 = true ∧ (lsState 0).sym.lookup 120 = some 0 ∧
    (lsState 0).slotAt 0 = .ok (.instr (.dec 120 true 10)) ∧ (lsState 0).sym.lookup 121 = none := bound_and_unbound

theorem witness_LdbLoadsB : isNameChar 255 = true ∧ (lsState 0).sym.lookup 120 = some 0 ∧
    (lsState 0).slotAt 0 = .ok (.instr (.dec 120 true 10)) ∧ (lsState 0).sym.lookup 121 = none := bound_and_unbound

theorem witness_StStoresA : isNameChar 255 = true ∧ (lsState 0).sym.lookup 120 = some 0 ∧
    (lsState 0).slotAt 0 = .ok (.instr (.dec 120 true 10)) ∧ (lsState 0).sym.lookup 121 = none := bound_and_unbound

theorem witness_LdiLoadsTheImmediate :
    intToken (ascii "-536870912") = some (-536870912#30).toInt ∧
    intToken (ascii "+0536870911") = some (536870911#30).toInt := by decide

/-- A store, a slot no name is bound to (stranded, T-LS-15), and a payload that changes under ST and under DEC. -/
theorem witness_LoadReadsTheLatestStore :
    (lsState 0).sym.lookup 120 = some 0 ∧ (1 : Addr) ≠ 0 ∧
    (nextOf (exec (.st 120) (lsState 0))).map (fun t => (t.memRead 0, (lsState 0).memRead 0)) = some (3, 10) ∧
    (nextOf (exec (.dec 120 false 5) (cell 255 0x81E00000005))).map
      (fun t => (t.memRead 255, (cell 255 0x81E00000005).memRead 255)) = some (0, 5) := by decide

theorem witness_JmpJumps : intToken (ascii "256") = some (256#30).toInt := by decide

theorem witness_JzsJumpsOnZero :
    intToken (ascii "-1") = some (-1#30).toInt ∧ { State.reset with z := true }.z = true ∧ State.reset.z = false := by decide

theorem witness_JvsJumpsOnOverflow :
    intToken (ascii "-1") = some (-1#30).toInt ∧ { State.reset with v := true }.v = true ∧ State.reset.v = false := by decide

/-- The targets just outside memory, taken and not taken. -/
theorem witness_JumpOutOfMemoryFaultsNext :
    ¬ (0 ≤ (256#30).toInt ∧ (256#30).toInt ≤ 255) ∧ ¬ (0 ≤ (-1#30).toInt ∧ (-1#30).toInt ≤ 255) ∧
    takenJump (.jmp 256) State.reset 256 ∧ takenJump (.jzs (-1)) { State.reset with z := true } (-1) ∧
    takenJump (.jvs 256) { State.reset with v := true } 256 ∧ State.reset.z = false ∧ State.reset.v = false :=
  ⟨by decide, by decide, .inl rfl, .inr (.inl ⟨rfl, rfl⟩), .inr (.inr ⟨rfl, rfl⟩), rfl, rfl⟩

theorem witness_HltStops :
    (cell 255 0xD0000000000).pcInRange ∧
    (cell 255 0xD0000000000).slotAt (cell 255 0xD0000000000).pcSlot = .ok (.instr .hlt) := ⟨by decide, rfl⟩

/-- A run of one step and a run that stops at once. -/
theorem witness_RunEndsAtTheFirstStop :
    (∃ e, RunsTo (cell 0 0x98000000007) e ∧ e.state.pc = 1) ∧
    (∃ e, RunsTo State.reset e) ∧ executed (step State.reset) = false ∧
    ∃ t, Reached (cell 0 0x98000000007) t ∧ t.pc = 1 ∧ executed (step t) = false :=
  ⟨⟨_, ⟨2, rfl⟩, rfl⟩, ⟨_, 1, rfl⟩, by decide, _, .step .start rfl, rfl, rfl⟩

/-- A run that ends in a stop and one that ends in a fault. -/
theorem witness_RunEndIsStopOrFault :
    (∃ e, RunsTo (cell 0 0x98000000007) e ∧ e.normal = true) ∧
    (∃ e, RunsTo (cell 0 0xB0000000100) e ∧ e.normal = false) :=
  ⟨⟨_, ⟨2, rfl⟩, rfl⟩, ⟨_, ⟨2, rfl⟩, rfl⟩⟩

/-- The hypotheses of a jump to its own address: T-JMP-3, T-JMP-12. -/
theorem witness_self_jump :
    ((cell 0 0xB0000000000).pcInRange ∧ (cell 0 0xB0000000000).slotAt 0 = .ok (.instr (.jmp 0)) ∧
      takenJump (.jmp 0) (cell 0 0xB0000000000) (cell 0 0xB0000000000).pc) ∧
    ({ cell 3 0xB8000000003 with z := true }.pcInRange ∧
      { cell 3 0xB8000000003 with z := true }.slotAt 3 = .ok (.instr (.jzs 3)) ∧
      takenJump (.jzs 3) { cell 3 0xB8000000003 with z := true } { cell 3 0xB8000000003 with z := true }.pc) :=
  ⟨⟨by decide, rfl, .inl rfl⟩, ⟨by decide, rfl, .inr (.inl ⟨rfl, rfl⟩)⟩⟩

theorem witness_LoadResetsEverything : ∃ t, (lsState 0).load [ascii "DEC x"] = .next t ∧
    t.slotAt 0 = .ok (.instr (.dec 120 false 0)) := ⟨_, rfl, rfl⟩

/-- A line that exists, one that does not, a text of 256 lines. -/
theorem witness_LoadFillsMemoryFromLines :
    (∃ t, State.reset.load [ascii "ADD"] = .next t) ∧
    ([ascii "ADD"] : List Line)[(0 : Addr).toNat]? = some (ascii "ADD") ∧
    ([ascii "ADD"] : List Line)[(1 : Addr).toNat]? = none ∧
    (List.replicate 256 (ascii "ADD")).length = 256 ∧
    (∀ line ∈ [ascii "ADD"].take 256, ∃ slot, loadLine line = .ok slot) :=
  ⟨⟨_, rfl⟩, rfl, rfl, List.length_replicate .., fun line h => ⟨.instr .add, by
    simp only [List.take_succ_cons, List.take_nil, List.mem_cons, List.not_mem_nil, or_false] at h
    subst h
    rfl⟩⟩

/-- The ends of the range. -/
theorem witness_LoadRefusesWideLiterals :
    intToken (ascii "-536870912") = some (-536870912) ∧ intToken (ascii "536870911") = some 536870911 ∧
    (-536870912 : Int) ≤ -536870912 ∧ (536870911 : Int) ≤ 536870911 ∧
    ([ascii "LDI 536870912"] : List Line).length ≤ 256 := by decide

set_option maxRecDepth 20000 in
/-- The last place where a line has a next one, and the first. -/
theorem witness_UnrecognisedLineIsAnEmptySlot :
    loadLine (ascii "FOO") = .ok .empty ∧
    (∃ t, State.reset.load ([] ++ ascii "FOO" :: ascii "HLT" :: []) = .next t) ∧
    (List.replicate 254 ([] : Line)).length < 255 ∧
    (∃ t, State.reset.load (List.replicate 254 [] ++ ascii "FOO" :: ascii "HLT" :: []) = .next t) :=
  ⟨rfl, ⟨_, rfl⟩, by decide, ⟨_, rfl⟩⟩

theorem witness_MalformedOperandTakesTheOpenValue :
    (∀ c, (none : Option (List Byte)) ≠ some [c]) ∧ (∀ c, some (ascii "xy") ≠ some [c]) ∧
    (none : Option (List Byte)).bind intToken = none ∧ (some (ascii "10abc")).bind intToken = none :=
  ⟨fun c => nofun, fun c h => by simp [ascii] at h, rfl, rfl⟩

theorem witness_SnapshotLines :
    (decimal (0#30).toInt).head? = some 48 ∧ 0 ≤ (0#30).toInt ∧ 0 ≤ (536870911#30).toInt ∧ (-1#30).toInt < 0 ∧ (-536870912#30).toInt < 0 := by decide

theorem witness_ControlServesAStep :
    stepPort.load = false ∧ stepPort.stepReq = true ∧ stepPort.runReq = false := by decide

/-- The machine of T-JMP-3 never stops. -/
theorem self_jump_runs_forever : RunsForever (cell 0 0xB0000000000) := by
  have fixed : ∀ fuel, runFor fuel { cell 0 0xB0000000000 with report := ranWith false } = none := by
    intro fuel
    induction fuel with
    | zero => rfl
    | succ n ih => exact ih
  intro fuel
  cases fuel with
  | zero => rfl
  | succ n => exact fixed n

/-- A run that ends, one that does not, inputs that vary with `load` low. -/
theorem witness_ControlServesARun :
    (runPort.load = false ∧ runPort.runReq = true ∧ runPort.stepReq = false) ∧
    (∀ i ∈ [lowPort, runPort, stepPort], i.load = false) ∧
    (∃ e, RunsTo (cell 0 0x98000000007) e) ∧ RunsForever (cell 0 0xB0000000000) :=
  ⟨by decide, by decide, ⟨_, 2, rfl⟩, self_jump_runs_forever⟩

theorem witness_ControlLoads :
    (Control.idle = .idle ∨ Control.idle = .fetch true) ∧ (Control.fetch true = .idle ∨ Control.fetch true = .fetch true) ∧
    (loadPort 255 0xD0000000000#44).load = true ∧
    (∀ i ∈ [loadPort 0 0x98000000007#44], i.load = true) ∧ lowPort.load = false :=
  ⟨.inl rfl, .inr rfl, rfl, by decide, rfl⟩

end Sys2Proof.Tests
end

/-! PROOFS. Family 10_state: the flags (R15, R16) and the bound names (R21). -/

namespace Sys2Proof.Machine

/-! ### The flags the ALU computes (R131) -/

/-- `wrap30` with its constants written out (R130). -/
theorem wrap30_eq (t : Int) : wrap30 t =
    if 536870911 < t then (t - 1073741824, true)
    else if t < -536870912 then (t + 1073741824, true)
    else (t, false) := rfl

/-- The sum of two data words, wrapped once, is a data value (R130). -/
theorem wrap30_add_range (a b : Word) :
    -2 ^ 29 ≤ (wrap30 (a.toInt + b.toInt)).1 ∧ (wrap30 (a.toInt + b.toInt)).1 < 2 ^ 29 := by
  have ha := a.toInt_lt
  have ha' := a.le_toInt
  have hb := b.toInt_lt
  have hb' := b.le_toInt
  rw [wrap30_eq]
  split_ifs <;> constructor <;> dsimp only <;> omega

/-- The new A is the wrapped sum as a signed value. -/
theorem aluAdd_sum_toInt (a b : Word) : (aluAdd a b).sum.toInt = (wrap30 (a.toInt + b.toInt)).1 := by
  obtain ⟨hlo, hhi⟩ := wrap30_add_range a b
  exact BitVec.toInt_ofInt_eq_self (by decide) hlo hhi

/-- Z is taken from the wrapped sum, so it says whether the new A is 0. -/
theorem aluAdd_zero_iff (a b : Word) : (aluAdd a b).zero = true ↔ (aluAdd a b).sum = 0 := by
  calc (aluAdd a b).zero = true
      ↔ (wrap30 (a.toInt + b.toInt)).1 = 0 := decide_eq_true_iff
    _ ↔ (aluAdd a b).sum.toInt = (0 : Word).toInt := by rw [aluAdd_sum_toInt]; rfl
    _ ↔ (aluAdd a b).sum = 0 := BitVec.toInt_inj

/-- V says whether the exact sum is outside the range of the data values. -/
theorem aluAdd_overflow_iff (a b : Word) :
    (aluAdd a b).overflow = true ↔ a.toInt + b.toInt < -2 ^ 29 ∨ 2 ^ 29 - 1 < a.toInt + b.toInt := by
  have hv : (aluAdd a b).overflow = (wrap30 (a.toInt + b.toInt)).2 := rfl
  rw [hv, wrap30_eq]
  split_ifs <;> simp <;> omega

/-! ### What writes the flags and what reads them (R15, R16) -/

/-- The state with other values in Z and V. -/
def State.withFlags (s : State) (z v : Bool) : State := { s with z := z, v := v }

@[simp] theorem State.withFlags_z (s : State) (z v : Bool) : (s.withFlags z v).z = z := rfl
@[simp] theorem State.withFlags_v (s : State) (z v : Bool) : (s.withFlags z v).v = v := rfl
@[simp] theorem State.withFlags_pc (s : State) (z v : Bool) : (s.withFlags z v).pc = s.pc := rfl
@[simp] theorem State.withFlags_sym (s : State) (z v : Bool) : (s.withFlags z v).sym = s.sym := rfl

/-- Everything ADD can do (R131). -/
theorem exec_add_next {s t : State} (h : exec .add s = .next t) :
    t = ((s.setAlu (aluAdd s.a s.b)).advance).retire false := by
  injection h with h
  exact h.symm

/-- ADD reads neither flag: it overwrites both. -/
theorem exec_add_withFlags (s : State) (z v : Bool) : exec .add (s.withFlags z v) = exec .add s := rfl

/-- An instruction other than ADD carries the flags along: with other values of those it does not read, it does the
same and leaves these values. -/
theorem exec_withFlags {i : Instr} {s t : State} {z v : Bool} (hi : i ≠ .add) (hz : ∀ d, i = .jzs d → z = s.z)
    (hv : ∀ d, i = .jvs d → v = s.v) (h : exec i s = .next t) :
    exec i (s.withFlags z v) = .next (t.withFlags z v) := by
  cases i with
  | add => exact absurd rfl hi
  | dec c d x =>
    rcases execDec_next (x := x) h with ⟨rfl, rfl⟩ | ⟨rfl, hr, rfl⟩
    · rfl
    · simp only [exec, execDec, State.withFlags_pc, State.slotAddr_of_inRange hr]
      rfl
  | lda c | ldb c | st c =>
    simp only [exec, execLda, execLdb, execSt, State.cell, State.withFlags_sym] at h ⊢
    cases hc : s.sym.lookup c <;> rw [hc] at h <;> injection h with h <;> subst h <;> rfl
  | ldi _ | xch | jmp _ | hlt =>
    injection h with h
    subst h
    rfl
  | jzs d =>
    obtain rfl := hz d rfl
    injection h with h
    subst h
    cases s.z <;> rfl
  | jvs d =>
    obtain rfl := hv d rfl
    injection h with h
    subst h
    cases s.v <;> rfl

/-- No instruction but ADD writes a flag. -/
theorem exec_keeps_flags {i : Instr} {s t : State} (hi : i ≠ .add) (h : exec i s = .next t) :
    t.z = s.z ∧ t.v = s.v := by
  have same : exec i s = .next (t.withFlags s.z s.v) := exec_withFlags hi (fun _ _ => rfl) (fun _ _ => rfl) h
  rw [h] at same
  injection same with same
  rw [same]
  exact ⟨State.withFlags_z .., State.withFlags_v ..⟩

/-- JZS alone reads Z. -/
theorem exec_with_other_z {i : Instr} {s t : State} (f : Bool) (hi : ∀ d, i ≠ .jzs d) (h : exec i s = .next t) :
    exec i { s with z := f } = .next { t with z := if i = .add then t.z else f } := by
  by_cases hadd : i = .add
  · subst hadd
    exact (exec_add_withFlags s f s.v).trans h
  · have hv : s.v = t.v := (exec_keeps_flags hadd h).2.symm
    rw [if_neg hadd]
    calc exec i { s with z := f }
        = exec i (s.withFlags f s.v) := rfl
      _ = .next (t.withFlags f s.v) := exec_withFlags hadd (fun d hd => absurd hd (hi d)) (fun _ _ => rfl) h
      _ = .next { t with z := f } := by rw [hv]; rfl

/-- JVS alone reads V. -/
theorem exec_with_other_v {i : Instr} {s t : State} (f : Bool) (hi : ∀ d, i ≠ .jvs d) (h : exec i s = .next t) :
    exec i { s with v := f } = .next { t with v := if i = .add then t.v else f } := by
  by_cases hadd : i = .add
  · subst hadd
    exact (exec_add_withFlags s s.z f).trans h
  · have hz : s.z = t.z := (exec_keeps_flags hadd h).1.symm
    rw [if_neg hadd]
    calc exec i { s with v := f }
        = exec i (s.withFlags s.z f) := rfl
      _ = .next (t.withFlags s.z f) := exec_withFlags hadd (fun _ _ => rfl) (fun d hd => absurd hd (hi d)) h
      _ = .next { t with v := f } := by rw [hz]; rfl

/-- Where JZS goes (R121). -/
theorem exec_jzs_pc (d : Word) (s : State) :
    ∃ t, exec (.jzs d) s = .next t ∧ t.pc = if s.z then d else s.pc + 1 := by
  refine ⟨_, rfl, ?_⟩
  rw [State.retire_pc]
  split <;> rfl

/-- Where JVS goes (R122). -/
theorem exec_jvs_pc (d : Word) (s : State) :
    ∃ t, exec (.jvs d) s = .next t ∧ t.pc = if s.v then d else s.pc + 1 := by
  refine ⟨_, rfl, ?_⟩
  rw [State.retire_pc]
  split <;> rfl

/-! ### What changes the memory and the symbol table (R25) -/

/-- Everything an instruction can do to the two tables: a first DEC and a bound ST write, nothing else does. -/
theorem exec_tables {i : Instr} {s t : State} (h : exec i s = .next t) :
    (t.sym = s.sym ∧ t.mem = s.mem) ∨
    (∃ c x, i = .dec c false x ∧ t.sym = ((s.bindName c s.pcSlot).declareOwn s.pcSlot).sym ∧
      t.mem = ((s.bindName c s.pcSlot).declareOwn s.pcSlot).mem) ∨
    (∃ c p, i = .st c ∧ s.sym.lookup c = some p ∧ t.sym = (s.memWrite p s.a).sym ∧
      t.mem = (s.memWrite p s.a).mem) := by
  rcases exec_next_cases h with ⟨_, _, -, rfl⟩ | ⟨c, x, hi, -, rfl⟩ | ⟨_, _, -, -, rfl⟩ | ⟨_, _, -, -, rfl⟩ |
    ⟨c, p, hi, hp, rfl⟩ | ⟨_, -, -, rfl⟩ | ⟨_, -, rfl⟩ | ⟨-, rfl⟩ | ⟨_, -, rfl⟩ | ⟨_, -, rfl⟩ | ⟨_, -, rfl⟩ | ⟨-, rfl⟩ |
    ⟨-, rfl⟩
  · exact .inl ⟨rfl, rfl⟩
  · exact .inr (.inl ⟨c, x, hi, rfl, rfl⟩)
  · exact .inl ⟨rfl, rfl⟩
  · exact .inl ⟨rfl, rfl⟩
  · exact .inr (.inr ⟨c, p, hi, hp, rfl, rfl⟩)
  · exact .inl ⟨rfl, rfl⟩
  · exact .inl ⟨rfl, rfl⟩
  · exact .inl ⟨rfl, rfl⟩
  · exact .inl ⟨rfl, rfl⟩
  · cases s.z <;> exact .inl ⟨rfl, rfl⟩
  · cases s.v <;> exact .inl ⟨rfl, rfl⟩
  · exact .inl ⟨rfl, rfl⟩
  · exact .inl ⟨rfl, rfl⟩

/-! ### The bound names (R20, R21) -/

/-- Every bound address names a declared DEC slot whose identifier is the bound name: the part of `State.Inv` that
needs no other part to be kept. -/
def State.BindingsDeclared (s : State) : Prop :=
  ∀ c p, s.sym.lookup c = some p → ∃ x, s.slotAt p = .ok (.instr (.dec c true x))

/-- Only the two tables matter. -/
theorem State.BindingsDeclared.congr {s t : State} (h : s.BindingsDeclared) (hsym : t.sym = s.sym)
    (hmem : t.mem = s.mem) : t.BindingsDeclared := by
  intro c p hp
  rw [hsym] at hp
  simpa only [State.slotAt, hmem] using h c p hp

/-- The payload write of a bound store. -/
theorem State.BindingsDeclared.memWrite {s : State} (h : s.BindingsDeclared) (p : Addr) (y : Word) :
    (s.memWrite p y).BindingsDeclared := by
  intro c q hq
  obtain ⟨x, hx⟩ := h c q hq
  by_cases hqp : q = p
  · subst hqp
    refine ⟨y, ?_⟩
    simpa [State.slotAt] using decode_withVal hx y
  · exact ⟨x, by rw [State.slotAt_memWrite_other s hqp]; exact hx⟩

/-- The first execution of the DEC slot at `p`. No name was bound to `p` before, since the slot was not declared. -/
theorem State.BindingsDeclared.declare {s : State} (h : s.BindingsDeclared) {c : SymCode} {p : Addr} {x : Word}
    (hp : s.slotAt p = .ok (.instr (.dec c false x))) : ((s.bindName c p).declareOwn p).BindingsDeclared := by
  intro d q hq
  simp only [State.declareOwn_sym, State.bindName_sym, SymbolTable.lookup_bind] at hq
  split at hq
  · next hd =>
    obtain rfl : p = q := by simpa using hq
    subst hd
    refine ⟨0, ?_⟩
    simpa [State.slotAt] using decode_declare hp
  · obtain ⟨y, hy⟩ := h d q hq
    have hqp : q ≠ p := by
      rintro rfl
      simp [hp] at hy
    refine ⟨y, ?_⟩
    rw [State.slotAt_declareOwn_other _ hqp]
    exact hy

/-- Every instruction that stands at the pc keeps the bindings declared. -/
theorem State.BindingsDeclared.exec {s t : State} {i : Instr} (h : s.BindingsDeclared)
    (hi : s.slotAt s.pcSlot = .ok (.instr i)) (he : exec i s = .next t) : t.BindingsDeclared := by
  rcases exec_tables he with ⟨hsym, hmem⟩ | ⟨c, x, rfl, hsym, hmem⟩ | ⟨c, p, -, -, hsym, hmem⟩
  · exact h.congr hsym hmem
  · exact (h.declare hi).congr hsym hmem
  · exact (h.memWrite p s.a).congr hsym hmem

/-- Every step keeps the bindings declared. -/
theorem State.BindingsDeclared.step {s t : State} (h : s.BindingsDeclared) (hs : step s = .next t) :
    t.BindingsDeclared := by
  obtain ⟨-, ⟨-, rfl⟩ | ⟨i, hi, he⟩⟩ := step_next_cases hs
  · exact h.congr rfl rfl
  · exact h.exec hi he

/-- A load leaves no name bound. -/
theorem State.load_bindingsDeclared {s s₁ : State} {lines : List Line} (h : s.load lines = .next s₁) :
    s₁.BindingsDeclared := by
  obtain ⟨slots, -, rfl⟩ := State.load_next h
  intro c p hp
  cases hp

/-- What a start has and every step keeps, every reached state has. -/
theorem Reached.of_step_keeps {P : State → Prop} (keeps : ∀ s t, P s → Machine.step s = .next t → P t)
    {s₀ s : State} (h : Reached s₀ s) (start : P s₀) : P s := by
  induction h with
  | start => exact start
  | step _ hs ih => exact keeps _ _ ih hs

/-- In every state reached from a load, a bound address names a declared DEC slot of the bound name (R21, R22). -/
theorem Reached.bindingsDeclared {s s₁ t : State} {lines : List Line} (hload : s.load lines = .next s₁)
    (h : Reached s₁ t) : t.BindingsDeclared :=
  h.of_step_keeps (fun _ _ hb hs => hb.step hs) (State.load_bindingsDeclared hload)

/-- The state after both steps of the program `DEC x`, `DEC x`: both slots are declared, `x` is bound to the second. -/
def shadowedState : State :=
  { State.reset with
    pc := 2, mem := [(0, encode (.dec 120 true 0)), (1, encode (.dec 120 true 0))], sym := [(120, 1)]
    report := ranWith false }

/-- The program's two steps from a load at reset. -/
theorem shadowedState_reached : ∃ s₁, State.reset.load [ascii "DEC x", ascii "DEC x"] = .next s₁ ∧
    Reached s₁ shadowedState :=
  ⟨_, rfl, .step (.step .start rfl) rfl⟩

/-- A second DEC of one name takes the binding and leaves the first slot declared (R101). -/
theorem shadowedState_slot_zero : shadowedState.slotAt 0 = .ok (.instr (.dec 120 true 0)) ∧
    ∀ c, shadowedState.sym.lookup c ≠ some 0 := by
  refine ⟨rfl, fun c h => ?_⟩
  have hsym : shadowedState.sym = SymbolTable.bind [] 120 1 := rfl
  rw [hsym, SymbolTable.lookup_bind] at h
  split at h
  · simp at h
  · simp at h

end Sys2Proof.Machine

namespace Sys2Proof.Claims

open Sys2Proof.Machine

/-- Settles O18: the ALU's Z, the frame of the flags, and the one reader of Z. -/
theorem zeroFlag : Obligations.ZeroFlag := by
  refine ⟨fun s t h => ?_, fun i s t hi h => (exec_keeps_flags hi h).1,
    fun i s t f hi h => exec_with_other_z f hi h, exec_jzs_pc, rfl⟩
  rw [exec_add_next h]
  exact aluAdd_zero_iff s.a s.b

/-- Settles O19: the ALU's V, the frame of the flags, and the one reader of V. -/
theorem overflowFlag : Obligations.OverflowFlag := by
  refine ⟨fun s t h => ?_, fun i s t hi h => (exec_keeps_flags hi h).2,
    fun i s t f hi h => exec_with_other_v f hi h, exec_jvs_pc, rfl⟩
  rw [exec_add_next h]
  exact aluAdd_overflow_iff s.a s.b

/-- Settles O27, by the invariant `State.BindingsDeclared`; a slot whose name was declared again refutes the
converse. -/
theorem boundNamesDeclaredSlot : Obligations.BoundNamesDeclaredSlot := by
  constructor
  · intro s s₁ t lines hload ht c p hp
    obtain ⟨x, hx⟩ := ht.bindingsDeclared hload c p hp
    exact ⟨c, x, hx⟩
  · obtain ⟨s₁, hload, ht⟩ := shadowedState_reached
    obtain ⟨hslot, hunbound⟩ := shadowedState_slot_zero
    exact ⟨State.reset, s₁, shadowedState, _, hload, ht, 0, 120, 0, hslot, hunbound⟩

end Sys2Proof.Claims

/-! PROOFS. Family 30_encoding: the table of slot words (R65, R66). -/

namespace Sys2Proof

/-- The word of a slot decodes to the slot (R66, read left to right). -/
theorem decodeSlot_encodeSlot (slot : Slot) : decodeSlot (encodeSlot slot) = .ok slot := by
  cases slot with
  | empty => rfl
  | instr i => cases i <;> simp [encodeSlot, encode, decodeSlot, onlySym, onlyVal, noField]

section DecodedRows

variable {w : SlotWord} {n : BitVec 4} {slot : Slot}

/-- An occupied word with opcode number `n` is packed from `n` and its other fields. -/
theorem packSlot_eq_of_fields {d : Bool} {c : SymCode} {x : Word} (ho : occF w = true)
    (hn : (opcF w).toNat = n.toNat) (hd : dclF w = d) (hc : symF w = c) (hx : valF w = x) :
    packSlot true n d c x = w := by
  have hn' : opcF w = n := BitVec.eq_of_toNat_eq hn
  rw [← ho, ← hn', ← hd, ← hc, ← hx, packSlot_fields]

/-- A row of R66 whose only free field is SYM. -/
theorem encodeSlot_of_onlySym (mk : SymCode → Instr) (hmk : ∀ c, encode (mk c) = packSlot true n false c 0)
    (ho : occF w = true) (hn : (opcF w).toNat = n.toNat) (h : onlySym w (mk (symF w)) = .ok slot) :
    encodeSlot slot = w := by
  unfold onlySym at h
  split at h
  · next hzero =>
    injection h with h
    subst h
    exact (hmk _).trans (packSlot_eq_of_fields ho hn hzero.1 rfl hzero.2)
  · simp at h

/-- A row of R66 whose only free field is VAL. -/
theorem encodeSlot_of_onlyVal (mk : Word → Instr) (hmk : ∀ x, encode (mk x) = packSlot true n false 0 x)
    (ho : occF w = true) (hn : (opcF w).toNat = n.toNat) (h : onlyVal w (mk (valF w)) = .ok slot) :
    encodeSlot slot = w := by
  unfold onlyVal at h
  split at h
  · next hzero =>
    injection h with h
    subst h
    exact (hmk _).trans (packSlot_eq_of_fields ho hn hzero.1 hzero.2 rfl)
  · simp at h

/-- A row of R66 with no free field. -/
theorem encodeSlot_of_noField {i : Instr} (hi : encode i = packSlot true n false 0 0)
    (ho : occF w = true) (hn : (opcF w).toNat = n.toNat) (h : noField w i = .ok slot) : encodeSlot slot = w := by
  unfold noField at h
  split at h
  · next hzero =>
    obtain ⟨hd, hc, hx⟩ := hzero
    injection h with h
    subst h
    exact hi.trans (packSlot_eq_of_fields ho hn hd hc hx)
  · simp at h

/-- A legal word is the word of the slot it decodes to (R66, read right to left): one case per row. -/
theorem encodeSlot_of_decodeSlot (h : decodeSlot w = .ok slot) : encodeSlot slot = w := by
  unfold decodeSlot at h
  split at h
  · split at h
    · next hw =>
      injection h with h
      rw [← h, hw]
      rfl
    · simp at h
  · next hocc =>
    have ho : occF w = true := by simpa using hocc
    split at h
    · next hn =>
      injection h with h
      subst h
      exact packSlot_eq_of_fields ho hn rfl rfl rfl
    · next hn => exact encodeSlot_of_onlySym .lda (fun _ => rfl) ho hn h
    · next hn => exact encodeSlot_of_onlySym .ldb (fun _ => rfl) ho hn h
    · next hn => exact encodeSlot_of_onlyVal .ldi (fun _ => rfl) ho hn h
    · next hn => exact encodeSlot_of_onlySym .st (fun _ => rfl) ho hn h
    · next hn => exact encodeSlot_of_noField (i := .xch) rfl ho hn h
    · next hn => exact encodeSlot_of_onlyVal .jmp (fun _ => rfl) ho hn h
    · next hn => exact encodeSlot_of_onlyVal .jzs (fun _ => rfl) ho hn h
    · next hn => exact encodeSlot_of_onlyVal .jvs (fun _ => rfl) ho hn h
    · next hn => exact encodeSlot_of_noField (i := .add) rfl ho hn h
    · next hn => exact encodeSlot_of_noField (i := .hlt) rfl ho hn h
    · simp at h

/-- The decoder is the inverse of the encoder (R69). -/
theorem decodeSlot_eq_ok_iff : decodeSlot w = .ok slot ↔ w = encodeSlot slot := by
  constructor
  · exact fun h => (encodeSlot_of_decodeSlot h).symm
  · rintro rfl
    exact decodeSlot_encodeSlot slot

end DecodedRows

end Sys2Proof

namespace Sys2Proof.Claims

/-- An occupied word has the number of its fields (R65). -/
theorem toNat_packSlot_occupied (n : BitVec 4) (d : Bool) (c : SymCode) (x : Word) :
    (packSlot true n d c x).toNat = wordNumber 1 n.toNat d c x :=
  toNat_packSlot true n d c x

/-- The word of a slot has the number of the slot's row (R65, R66). -/
theorem toNat_encodeSlot (slot : Slot) : (encodeSlot slot).toNat = slotNumber slot := by
  cases slot with
  | empty => rfl
  | instr i => cases i <;> exact toNat_packSlot_occupied ..

/-- Settles O2: the decoder inverts the encoder, and a word is its number. -/
theorem legalWordsAreTheTable : Obligations.LegalWordsAreTheTable := by
  intro w slot
  calc decodeSlot w = .ok slot
      ↔ w = encodeSlot slot := decodeSlot_eq_ok_iff
    _ ↔ w.toNat = (encodeSlot slot).toNat := BitVec.toNat_inj.symm
    _ ↔ w.toNat = slotNumber slot := by rw [toNat_encodeSlot]

end Sys2Proof.Claims

/-! PROOFS. Family 30_encoding: the operands of a line and what the loader refuses (R55 to R60). -/

namespace Sys2Proof.Machine

/-! ### Operands -/

/-- An identifier operand that is not one character (R59). -/
theorem symOperand_malformed {operand : Option (List Byte)} (h : ∀ c, operand ≠ some [c]) :
    symOperand operand = Config.malformedSym := by
  unfold symOperand
  split
  · next c => exact absurd rfl (h c)
  · rfl

/-- An integer operand that is no decimal integer (R59). -/
theorem intOperand_malformed {operand : Option (List Byte)} (h : operand.bind intToken = none) :
    intOperand operand = .ok Config.malformedInt := by
  rw [intOperand, h]

/-- A decimal integer (R57, R58). -/
theorem intOperand_of_intToken {tok : List Byte} {n : Int} (h : intToken tok = some n) :
    intOperand (some tok) =
      if -536870912 ≤ n ∧ n ≤ 536870911 then .ok (BitVec.ofInt 30 n) else .error .literalRange := by
  rw [intOperand, Option.bind_some, h]
  rfl

/-- A wide decimal integer is the one operand that refuses (R58). -/
theorem intOperand_error_iff {operand : Option (List Byte)} :
    (∃ r, intOperand operand = .error r) ↔
      ∃ tok n, operand = some tok ∧ intToken tok = some n ∧ (n < -536870912 ∨ 536870911 < n) := by
  constructor
  · rintro ⟨r, hr⟩
    cases hop : operand.bind intToken with
    | none => simp [intOperand_malformed hop] at hr
    | some n =>
      obtain ⟨tok, rfl, hn⟩ := Option.bind_eq_some_iff.mp hop
      refine ⟨tok, n, rfl, hn, ?_⟩
      rw [intOperand_of_intToken hn] at hr
      split at hr
      · simp at hr
      · omega
  · rintro ⟨tok, n, rfl, hn, hwide⟩
    refine ⟨.literalRange, ?_⟩
    rw [intOperand_of_intToken hn, if_neg (by omega)]

theorem withInt_of_ok {operand : Option (List Byte)} {x : Word} (mk : Word → Instr) (h : intOperand operand = .ok x) :
    withInt operand mk = .ok (.instr (mk x)) := by
  rw [withInt, h]

theorem withInt_of_error {operand : Option (List Byte)} {r : Refusal} (mk : Word → Instr)
    (h : intOperand operand = .error r) : withInt operand mk = .error r := by
  rw [withInt, h]

theorem withInt_error_iff {operand : Option (List Byte)} (mk : Word → Instr) :
    (∃ r, withInt operand mk = .error r) ↔ ∃ r, intOperand operand = .error r := by
  cases h : intOperand operand with
  | ok x => simp [withInt_of_ok mk h]
  | error r => simp [withInt_of_error mk h]

/-! ### The keywords with an operand (R55, R60) -/

section Keywords

variable (operand : Option (List Byte))

theorem slotOfTokens_dec : slotOfTokens (ascii "DEC") operand = .ok (.instr (.dec (symOperand operand) false 0)) := rfl
theorem slotOfTokens_lda : slotOfTokens (ascii "LDA") operand = .ok (.instr (.lda (symOperand operand))) := rfl
theorem slotOfTokens_ldb : slotOfTokens (ascii "LDB") operand = .ok (.instr (.ldb (symOperand operand))) := rfl
theorem slotOfTokens_st : slotOfTokens (ascii "ST") operand = .ok (.instr (.st (symOperand operand))) := rfl
theorem slotOfTokens_ldi : slotOfTokens (ascii "LDI") operand = withInt operand .ldi := rfl
theorem slotOfTokens_jmp : slotOfTokens (ascii "JMP") operand = withInt operand .jmp := rfl
theorem slotOfTokens_jzs : slotOfTokens (ascii "JZS") operand = withInt operand .jzs := rfl
theorem slotOfTokens_jvs : slotOfTokens (ascii "JVS") operand = withInt operand .jvs := rfl

end Keywords

/-! ### The refusal of a list of lines (R58) -/

/-- A list of lines is refused exactly when one of them is. -/
theorem assemble_error_iff {lines : List Line} :
    (∃ r, assemble lines = .error r) ↔ ∃ line ∈ lines, ∃ r, loadLine line = .error r := by
  induction lines with
  | nil => simp [assemble]
  | cons line rest ih =>
    rw [List.exists_mem_cons_iff, ← ih, assemble]
    cases loadLine line <;> cases assemble rest <;> simp

/-- A load is refused exactly when its first 256 lines are. -/
theorem State.load_refused_iff (s : State) (lines : List Line) :
    (∃ r, s.load lines = .refused r) ↔ ∃ r, assemble (lines.take 256) = .error r := by
  have hn : Config.nSlots = 256 := rfl
  rw [State.load, hn]
  cases assemble (lines.take 256) <;> simp

end Sys2Proof.Machine

namespace Sys2Proof.Claims

open Sys2Proof.Machine

/-! ### The refusal of a line (R58) -/

/-- A line with an integer keyword is read by `withInt`. -/
theorem slotOfTokens_of_intKeyword {keyword : List Byte} (h : keyword ∈ intKeywords) :
    ∃ mk, ∀ operand, slotOfTokens keyword operand = withInt operand mk := by
  simp only [intKeywords, List.mem_cons, List.not_mem_nil, or_false] at h
  rcases h with rfl | rfl | rfl | rfl
  · exact ⟨.ldi, slotOfTokens_ldi⟩
  · exact ⟨.jmp, slotOfTokens_jmp⟩
  · exact ⟨.jzs, slotOfTokens_jzs⟩
  · exact ⟨.jvs, slotOfTokens_jvs⟩

/-- A line with any other first token is never refused. -/
theorem slotOfTokens_of_not_intKeyword {keyword : List Byte} (h : keyword ∉ intKeywords)
    (operand : Option (List Byte)) : ∃ slot, slotOfTokens keyword operand = .ok slot := by
  simp only [intKeywords, List.mem_cons, List.not_mem_nil, or_false, not_or] at h
  obtain ⟨hldi, hjmp, hjzs, hjvs⟩ := h
  rw [slotOfTokens, if_neg hldi, if_neg hjmp, if_neg hjzs, if_neg hjvs]
  split_ifs <;> exact ⟨_, rfl⟩

theorem slotOfTokens_error_iff {keyword : List Byte} {operand : Option (List Byte)} :
    (∃ r, slotOfTokens keyword operand = .error r) ↔ keyword ∈ intKeywords ∧ ∃ r, intOperand operand = .error r := by
  by_cases hk : keyword ∈ intKeywords
  · obtain ⟨mk, hmk⟩ := slotOfTokens_of_intKeyword hk
    rw [hmk, withInt_error_iff, and_iff_right hk]
  · obtain ⟨slot, hslot⟩ := slotOfTokens_of_not_intKeyword hk operand
    simp [hslot, hk]

/-- A line refuses exactly for a wide decimal integer after an integer keyword. -/
theorem loadLine_error_iff {line : Line} :
    (∃ r, loadLine line = .error r) ↔ ∃ keyword tok rest n, tokens line = keyword :: tok :: rest ∧
      keyword ∈ intKeywords ∧ intToken tok = some n ∧ (n < -536870912 ∨ 536870911 < n) := by
  unfold loadLine
  split
  · next htokens => simp [htokens]
  · next keyword rest htokens =>
    rw [slotOfTokens_error_iff, intOperand_error_iff, htokens]
    constructor
    · rintro ⟨hk, tok, n, hhead, hn, hwide⟩
      obtain ⟨more, rfl⟩ := List.head?_eq_some_iff.mp hhead
      exact ⟨keyword, tok, more, n, rfl, hk, hn, hwide⟩
    · rintro ⟨_, tok, more, n, heq, hk, hn, hwide⟩
      injection heq with hkeyword hrest
      subst hkeyword hrest
      exact ⟨hk, tok, n, rfl, hn, hwide⟩

/-- Settles O53: the load is refused by the first bad line, and a line by its integer operand alone. -/
theorem loadRefusesWideLiterals : Obligations.LoadRefusesWideLiterals := by
  refine ⟨fun s lines hlen => ?_, fun tok n hn hlo hhi => ?_⟩
  · rw [State.load_refused_iff, List.take_of_length_le hlen, assemble_error_iff]
    simp only [loadLine_error_iff]
  · have hok : intOperand (some tok) = .ok (BitVec.ofInt 30 n) := by
      rw [intOperand_of_intToken hn, if_pos ⟨hlo, hhi⟩]
    exact ⟨withInt_of_ok .ldi hok, withInt_of_ok .jmp hok, withInt_of_ok .jzs hok, withInt_of_ok .jvs hok⟩

/-- Settles O55: each keyword's equation at the open value of its operand. -/
theorem malformedOperandTakesTheOpenValue : Obligations.MalformedOperandTakesTheOpenValue := by
  constructor
  · intro operand h
    rw [slotOfTokens_dec, slotOfTokens_lda, slotOfTokens_ldb, slotOfTokens_st, symOperand_malformed h]
    exact ⟨rfl, rfl, rfl, rfl⟩
  · intro operand h
    have hok := intOperand_malformed h
    rw [slotOfTokens_ldi, slotOfTokens_jmp, slotOfTokens_jzs, slotOfTokens_jvs]
    exact ⟨withInt_of_ok .ldi hok, withInt_of_ok .jmp hok, withInt_of_ok .jzs hok, withInt_of_ok .jvs hok⟩

end Sys2Proof.Claims

/-! PROOFS. Family 30_encoding: the numbers and the lines of the snapshot (R70). -/

namespace Sys2Proof.Machine

/-! ### Decimal digits -/

theorem toNat_digitChar {d : Nat} (h : d < 10) : (BitVec.ofNat 8 (48 + d)).toNat = 48 + d := by
  rw [BitVec.toNat_ofNat]
  omega

theorem digitValue_digitChar {d : Nat} (h : d < 10) : digitValue (BitVec.ofNat 8 (48 + d)) = some d := by
  rw [digitValue, toNat_digitChar h, if_pos (by omega), Nat.add_sub_cancel_left]

theorem digits_of_lt {n : Nat} (fuel : Nat) (h : n < 10) : digits (fuel + 1) n = [BitVec.ofNat 8 (48 + n)] := by
  rw [digits, if_pos h]

theorem digits_of_ge {n : Nat} (fuel : Nat) (h : 10 ≤ n) :
    digits (fuel + 1) n = digits fuel (n / 10) ++ [BitVec.ofNat 8 (48 + n % 10)] := by
  rw [digits, if_neg (by omega)]

theorem digits_succ_ne_nil (fuel n : Nat) : digits (fuel + 1) n ≠ [] := by
  rcases Nat.lt_or_ge n 10 with hn | hn
  · simp [digits_of_lt fuel hn]
  · simp [digits_of_ge fuel hn]

/-- Every character of a number without sign is a decimal digit. -/
theorem toNat_of_mem_digits {fuel n : Nat} {c : Byte} (h : c ∈ digits fuel n) : 48 ≤ c.toNat ∧ c.toNat ≤ 57 := by
  induction fuel generalizing n with
  | zero => simp [digits] at h
  | succ fuel ih =>
    rcases Nat.lt_or_ge n 10 with hn | hn
    · rw [digits_of_lt fuel hn, List.mem_singleton] at h
      rw [h, toNat_digitChar hn]
      omega
    · rw [digits_of_ge fuel hn, List.mem_append, List.mem_singleton] at h
      rcases h with h | h
      · exact ih h
      · rw [h, toNat_digitChar (by omega)]
        omega

/-- One more digit at the end. -/
theorem digitsFrom_append_digit {acc m d : Nat} {xs : List Byte} (h : digitsFrom acc xs = some m) (hd : d < 10) :
    digitsFrom acc (xs ++ [BitVec.ofNat 8 (48 + d)]) = some (10 * m + d) := by
  induction xs generalizing acc with
  | nil =>
    injection h with h
    simp [digitsFrom, digitValue_digitChar hd, h]
  | cons x rest ih =>
    rw [digitsFrom] at h
    rw [List.cons_append, digitsFrom]
    cases hx : digitValue x with
    | none => simp [hx] at h
    | some e =>
      rw [hx] at h
      exact ih h

/-- The digits read back as the number, if there are enough of them. -/
theorem digitsFrom_digits {fuel n : Nat} (h : n < 10 ^ fuel) : digitsFrom 0 (digits fuel n) = some n := by
  induction fuel generalizing n with
  | zero =>
    obtain rfl : n = 0 := by omega
    rfl
  | succ fuel ih =>
    rcases Nat.lt_or_ge n 10 with hn | hn
    · rw [digits_of_lt fuel hn]
      simp [digitsFrom, digitValue_digitChar hn]
    · have hdiv : n / 10 < 10 ^ fuel := by omega
      rw [digits_of_ge fuel hn, digitsFrom_append_digit (ih hdiv) (by omega), Nat.div_add_mod]

/-- A positive number has no leading zero. -/
theorem digits_head_ne_zero {fuel n : Nat} (h : n < 10 ^ fuel) (hpos : 0 < n) : (digits fuel n).head? ≠ some 48 := by
  induction fuel generalizing n with
  | zero => simp [digits]
  | succ fuel ih =>
    rcases Nat.lt_or_ge n 10 with hn | hn
    · rw [digits_of_lt fuel hn]
      intro hhead
      have hchar := congrArg BitVec.toNat (Option.some.inj hhead)
      rw [toNat_digitChar hn] at hchar
      simp at hchar
      omega
    · obtain ⟨k, rfl⟩ : ∃ k, fuel = k + 1 := Nat.exists_eq_succ_of_ne_zero (by rintro rfl; omega)
      rw [digits_of_ge _ hn, List.head?_append_of_ne_nil _ (digits_succ_ne_nil _ _)]
      exact ih (by omega) (by omega)

/-! ### Numbers without sign -/

theorem natToken_decimalNat {n : Nat} (h : n < 10 ^ 10) : natToken (decimalNat n) = some n := by
  have hread : digitsFrom 0 (decimalNat n) = some n := digitsFrom_digits h
  cases hd : decimalNat n with
  | nil => exact absurd hd (digits_succ_ne_nil 9 n)
  | cons c rest =>
    rw [hd] at hread
    exact hread

/-- A number without sign starts with a digit. -/
theorem decimalNat_head_ne {n : Nat} {c : Byte} (h : c.toNat < 48 ∨ 57 < c.toNat) :
    (decimalNat n).head? ≠ some c := by
  intro hhead
  have := toNat_of_mem_digits (List.mem_of_head? hhead)
  omega

/-! ### Signed numbers -/

theorem decimal_of_nonneg {i : Int} (h : 0 ≤ i) : decimal i = decimalNat i.natAbs := by
  rw [decimal, if_neg (by omega)]

theorem decimal_of_neg {i : Int} (h : i < 0) : decimal i = 45 :: decimalNat i.natAbs := by
  rw [decimal, if_pos h]

@[simp] theorem decimal_natCast (n : Nat) : decimal n = decimalNat n :=
  decimal_of_nonneg (Int.natCast_nonneg n)

/-- A token that starts with no sign is read as digits (R57). -/
theorem intToken_of_no_sign {tok : List Byte} (hminus : tok.head? ≠ some 45) (hplus : tok.head? ≠ some 43) :
    intToken tok = signedToken false tok := by
  cases tok with
  | nil => rfl
  | cons c rest =>
    have hm : c ≠ 45 := by simpa using hminus
    have hp : c ≠ 43 := by simpa using hplus
    rw [intToken, if_neg hm, if_neg hp]

theorem signedToken_decimalNat {n : Nat} (h : n < 10 ^ 10) (negative : Bool) :
    signedToken negative (decimalNat n) = some (if negative then -(n : Int) else n) := by
  rw [signedToken, natToken_decimalNat h]
  cases negative <;> rfl

/-- The snapshot's numbers read back as their values. -/
theorem intToken_decimal {i : Int} (h : i.natAbs < 10 ^ 10) : intToken (decimal i) = some i := by
  rcases lt_or_ge i 0 with hi | hi
  · rw [decimal_of_neg hi, intToken, if_pos rfl, signedToken_decimalNat h, if_pos rfl,
      ← Int.eq_neg_natAbs_of_nonpos hi.le]
  · rw [decimal_of_nonneg hi, intToken_of_no_sign (decimalNat_head_ne (by decide)) (decimalNat_head_ne (by decide)),
      signedToken_decimalNat h, if_neg Bool.false_ne_true, Int.natAbs_of_nonneg hi]

/-- A leading `-` says exactly that the number is negative. -/
theorem decimal_head_minus_iff {i : Int} : (decimal i).head? = some 45 ↔ i < 0 := by
  rcases lt_or_ge i 0 with hi | hi
  · simp [decimal_of_neg hi, hi]
  · rw [decimal_of_nonneg hi]
    exact iff_of_false (decimalNat_head_ne (by decide)) (by omega)

/-- Zero alone starts with `0`. -/
theorem decimal_head_zero {i : Int} (h : i.natAbs < 10 ^ 10) (hz : (decimal i).head? = some 48) : i = 0 := by
  rcases lt_or_ge i 0 with hi | hi
  · simp [decimal_of_neg hi] at hz
  · rw [decimal_of_nonneg hi] at hz
    by_contra hne
    exact digits_head_ne_zero h (by omega) hz

/-- No zero leads after the `-`. -/
theorem decimal_second_ne_zero {i : Int} (h : i.natAbs < 10 ^ 10) (hi : i < 0) : (decimal i)[1]? ≠ some 48 := by
  rw [decimal_of_neg hi, List.getElem?_cons_succ, ← List.head?_eq_getElem?]
  exact digits_head_ne_zero h (by omega)

/-- A data value has at most ten digits. -/
theorem natAbs_toInt_lt (x : Word) : x.toInt.natAbs < 10 ^ 10 := by
  have hlo := x.le_toInt
  have hhi := x.toInt_lt
  omega

/-! ### The lines of the snapshot -/

theorem snapshotLines_length (s : State) : (snapshotLines s).length = 262 := by
  rw [snapshotLines, List.length_append, List.length_map, List.length_range]
  rfl

/-- The memory lines stand in ascending order of address. -/
theorem snapshotLines_memory (s : State) (p : Addr) :
    (snapshotLines s)[6 + p.toNat]? = some (decimal p.toNat ++ ascii ": " ++ wordText (s.mem.read p)) := by
  have hstate : (stateLines s).length = 6 := rfl
  have hp : p.toNat < Config.nSlots := p.isLt
  calc (snapshotLines s)[6 + p.toNat]?
      = ((List.range Config.nSlots).map (memoryLine s))[p.toNat]? := by
        rw [snapshotLines, List.getElem?_append_right (by omega), hstate, Nat.add_sub_cancel_left]
    _ = some (memoryLine s p.toNat) := by
        rw [List.getElem?_map, List.getElem?_range hp, Option.map_some]
    _ = _ := by rw [memoryLine, decimal_natCast, BitVec.ofNat_toNat, BitVec.setWidth_eq]

end Sys2Proof.Machine

namespace Sys2Proof.Claims

open Sys2Proof.Machine

/-- Settles O56: the lines by position; the numbers by the facts about `decimal`, a data value having at most ten
digits. -/
theorem snapshotLines : Obligations.SnapshotLines := by
  refine ⟨fun s => ⟨snapshotLines_length s, rfl, snapshotLines_memory s, rfl⟩, fun x => ?_⟩
  have hx := natAbs_toInt_lt x
  refine ⟨intToken_decimal hx, decimal_head_minus_iff, fun hi c hc => ?_, fun hz => ?_, decimal_second_ne_zero hx⟩
  · rw [decimal_of_nonneg hi] at hc
    exact toNat_of_mem_digits hc
  · rw [decimal_head_zero hx hz]
    rfl

end Sys2Proof.Claims

/-! PROOFS. Family 40_fetch_execute: the results of a step (R80), the pc (R84, R85), and the end of a run (R86). -/

namespace Sys2Proof.Machine

open Sys2Proof.Claims

/-! ### What a step reports (R80, R150) -/

/-- A step counts as executed by its report alone. -/
theorem executed_iff {o : Host.Outcome State Fault Refusal} :
    executed o = true ↔ ∃ diag, reportOf o = ranWith diag := by
  unfold executed ranWith
  rcases reportOf o with _ | ⟨result, diag⟩
  · simp
  · cases result <;> simp [StepResult.asBool]

theorem executed_congr {o o' : Host.Outcome State Fault Refusal} (h : reportOf o = reportOf o') :
    executed o = executed o' := by
  simp only [executed, h]

/-- Only a next state can report `Executed`: no fault has the boolean true. -/
theorem exists_next_of_executed {o : Host.Outcome State Fault Refusal} (h : executed o = true) :
    ∃ t, o = .next t := by
  cases o with
  | next t => exact ⟨t, rfl⟩
  | fault f => cases f <;> cases h
  | refused r => cases h

/-! ### What a step does at each kind of slot (R80) -/

section StepAt

variable {s : State}

theorem step_of_not_pcInRange (h : ¬ s.pcInRange) : step s = .fault .pcRange := by
  simp only [step, State.fetch, slotAddr_eq_none.mpr h]

theorem step_of_illegal {e : IllegalWord} (hr : s.pcInRange) (h : s.slotAt s.pcSlot = .error e) :
    step s = .fault .illegalSlot := by
  unfold State.slotAt at h
  simp only [step, State.fetch, State.slotAddr_of_inRange hr, h]

theorem step_of_empty (hr : s.pcInRange) (h : s.slotAt s.pcSlot = .ok .empty) :
    step s = .next (s.stop .stopEmpty) := by
  unfold State.slotAt at h
  simp only [step, State.fetch, State.slotAddr_of_inRange hr, h]

theorem step_of_instr {i : Instr} (hr : s.pcInRange) (h : s.slotAt s.pcSlot = .ok (.instr i)) :
    step s = exec i s := by
  simp only [step, State.fetch_of_slotAt hr h]

end StepAt

/-- Every instruction has a meaning at a pc in 0..255: only DEC's own-slot write looks at the pc (log entry 9). -/
theorem exec_total {s : State} (hr : s.pcInRange) (i : Instr) : ∃ t, exec i s = .next t := by
  cases i with
  | dec c d x =>
    cases d with
    | true => exact ⟨_, rfl⟩
    | false => simp [exec, execDec, State.slotAddr_of_inRange hr]
  | lda c | ldb c | st c =>
    simp only [exec, execLda, execLdb, execSt]
    cases s.cell c <;> exact ⟨_, rfl⟩
  | ldi _ | xch | jmp _ | jzs _ | jvs _ | add | hlt => exact ⟨_, rfl⟩

/-! ### Where an instruction leaves the pc (R84) -/

/-- A taken jump has one target. -/
theorem takenJump_unique {i : Instr} {s : State} {d d' : Word} (h : takenJump i s d) (h' : takenJump i s d') :
    d = d' := by
  rcases h with rfl | ⟨rfl, hz⟩ | ⟨rfl, hv⟩
  · simpa [takenJump] using h'
  · simpa [takenJump, hz] using h'
  · simpa [takenJump, hv] using h'

/-- An instruction that gives a next state takes a jump, and then writes nothing but the pc, or advances the pc by one,
or is HLT, which stops. -/
theorem exec_jumps_or_advances {i : Instr} {s t : State} (h : exec i s = .next t) :
    (∃ d, takenJump i s d ∧ t = (s.jump d).retire false) ∨
    (i ≠ .hlt ∧ (∀ d, ¬ takenJump i s d) ∧ t.pc = s.pc + 1 ∧ ∃ diag, t.report = ranWith diag) ∨
    (i = .hlt ∧ t = s.stop .stopHalt) := by
  rcases exec_next_cases h with ⟨c, x, rfl, rfl⟩ | ⟨c, x, rfl, -, rfl⟩ | ⟨c, p, rfl, -, rfl⟩ | ⟨c, p, rfl, -, rfl⟩ |
    ⟨c, p, rfl, -, rfl⟩ | ⟨c, rfl | rfl | rfl, -, rfl⟩ | ⟨x, rfl, rfl⟩ | ⟨rfl, rfl⟩ | ⟨d, rfl, rfl⟩ | ⟨d, rfl, rfl⟩ |
    ⟨d, rfl, rfl⟩ | ⟨rfl, rfl⟩ | ⟨rfl, rfl⟩
  -- the ten cases of DEC, LDA, LDB, ST, LDI and XCH, bound or not
  iterate 10 exact .inr (.inl ⟨by simp, by simp [takenJump], rfl, _, rfl⟩)
  · exact .inl ⟨d, .inl rfl, rfl⟩
  · cases hz : s.z with
    | true => exact .inl ⟨d, .inr (.inl ⟨rfl, hz⟩), rfl⟩
    | false => exact .inr (.inl ⟨by simp, by simp [takenJump, hz], rfl, _, rfl⟩)
  · cases hv : s.v with
    | true => exact .inl ⟨d, .inr (.inr ⟨rfl, hv⟩), rfl⟩
    | false => exact .inr (.inl ⟨by simp, by simp [takenJump, hv], rfl, _, rfl⟩)
  · exact .inr (.inl ⟨by simp, by simp [takenJump], rfl, _, rfl⟩)
  · exact .inr (.inr ⟨rfl, rfl⟩)

/-- Every instruction but HLT is reported as `Executed` (R80). -/
theorem exec_report {i : Instr} {s t : State} (hi : i ≠ .hlt) (h : exec i s = .next t) :
    ∃ diag, t.report = ranWith diag := by
  rcases exec_jumps_or_advances h with ⟨d, -, rfl⟩ | ⟨-, -, -, hreport⟩ | ⟨rfl, -⟩
  · exact ⟨false, rfl⟩
  · exact hreport
  · exact absurd rfl hi

theorem pcAfter_of_takenJump {i : Instr} {s : State} {d : Word} (h : takenJump i s d) : pcAfter i s = d.toInt := by
  rcases h with rfl | ⟨rfl, hz⟩ | ⟨rfl, hv⟩
  · rfl
  · simp [pcAfter, hz]
  · simp [pcAfter, hv]

theorem pcAfter_of_not_takenJump {i : Instr} {s : State} (hi : i ≠ .hlt) (h : ∀ d, ¬ takenJump i s d) :
    pcAfter i s = s.pc.toInt + 1 := by
  cases i with
  | dec _ _ _ | lda _ | ldb _ | ldi _ | st _ | xch | add => rfl
  | jmp d => exact absurd (.inl rfl) (h d)
  | jzs d => exact if_neg fun hz => h d (.inr (.inl ⟨rfl, hz⟩))
  | jvs d => exact if_neg fun hv => h d (.inr (.inr ⟨rfl, hv⟩))
  | hlt => exact absurd rfl hi

/-- Past slot 255 the pc does not wrap (R84). -/
theorem toInt_pc_add_one {s : State} (hr : s.pcInRange) : (s.pc + 1).toInt = s.pc.toInt + 1 := by
  obtain ⟨hlo, hhi⟩ := hr
  rw [BitVec.toInt_add]
  exact Int.bmod_eq_of_le (by simp; omega) (by simp; omega)

/-! ### Jumps to their own address (R85) -/

/-- What an executed step did: it took a jump, or it advanced the pc. -/
theorem executed_step_cases {s t : State} (h : step s = .next t) (he : executed (.next t) = true) :
    s.pcInRange ∧ ∃ i, s.slotAt s.pcSlot = .ok (.instr i) ∧
      ((∃ d, takenJump i s d ∧ t = (s.jump d).retire false) ∨ (∀ d, ¬ takenJump i s d) ∧ t.pc = s.pc + 1) := by
  obtain ⟨hr, ⟨-, rfl⟩ | ⟨i, hi, hx⟩⟩ := step_next_cases h
  · cases he
  · rcases exec_jumps_or_advances hx with htaken | ⟨-, hnone, hpc, -⟩ | ⟨-, rfl⟩
    · exact ⟨hr, i, hi, .inl htaken⟩
    · exact ⟨hr, i, hi, .inr ⟨hnone, hpc⟩⟩
    · cases he

theorem exec_of_takenJump {i : Instr} {s : State} {d : Word} (h : takenJump i s d) :
    exec i s = .next ((s.jump d).retire false) := by
  rcases h with rfl | ⟨rfl, hz⟩ | ⟨rfl, hv⟩
  · rfl
  · simp [exec, execJzs, target, hz]
  · simp [exec, execJvs, target, hv]

/-- The slot at the pc holds a jump to that slot, and the jump is taken. -/
def SelfJump (s : State) : Prop :=
  s.pcInRange ∧ ∃ i, s.slotAt s.pcSlot = .ok (.instr i) ∧ takenJump i s s.pc

/-- The outputs have no part in it. -/
theorem SelfJump.retire {s : State} (h : SelfJump s) (diag : Bool) : SelfJump (s.retire diag) := h

/-- The step of a self jump changes the outputs only. -/
theorem SelfJump.step {s : State} (h : SelfJump s) : step s = .next (s.retire false) := by
  obtain ⟨hr, i, hi, htaken⟩ := h
  exact (step_of_instr hr hi).trans (exec_of_takenJump htaken)

/-! ### Runs (R86) -/

theorem runFor_succ_of_executed {s t : State} (fuel : Nat) (h : step s = .next t) (he : executed (step s) = true) :
    runFor (fuel + 1) s = runFor fuel t := by
  rw [runFor, if_pos he, h]
  rfl

/-- The end of a run whose first step, the one from `s`, does not execute. -/
def endAt (s : State) : RunEnd := ⟨reportOf (step s), stateAfter s (step s)⟩

theorem runFor_succ_of_not_executed {s : State} (fuel : Nat) (h : executed (step s) = false) :
    runFor (fuel + 1) s = some (endAt s) := by
  rw [runFor, if_neg (by simp [h])]
  rfl

theorem runsTo_endAt {s : State} (h : executed (step s) = false) : RunsTo s (endAt s) :=
  ⟨1, runFor_succ_of_not_executed 0 h⟩

/-- A run has one end, whatever the fuel it is found with. -/
theorem runFor_unique {n m : Nat} {s : State} {e e' : RunEnd} (h : runFor n s = some e) (h' : runFor m s = some e') :
    e' = e := by
  induction n generalizing m s with
  | zero => cases h
  | succ n ih =>
    cases m with
    | zero => cases h'
    | succ m =>
      cases he : executed (step s) with
      | true =>
        obtain ⟨t, ht⟩ := exists_next_of_executed he
        rw [runFor_succ_of_executed _ ht he] at h h'
        exact ih h h'
      | false =>
        rw [runFor_succ_of_not_executed _ he] at h h'
        exact Option.some_inj.mp (h'.symm.trans h)

theorem RunsTo.unique {s : State} {e e' : RunEnd} (h : RunsTo s e) (h' : RunsTo s e') : e' = e := by
  obtain ⟨n, hn⟩ := h
  obtain ⟨m, hm⟩ := h'
  exact runFor_unique hn hm

/-- A self jump is taken again after every step of it. -/
theorem SelfJump.runsForever {s : State} (h : SelfJump s) : RunsForever s := by
  intro fuel
  induction fuel generalizing s with
  | zero => rfl
  | succ fuel ih =>
    have he : executed (Machine.step s) = true := by rw [h.step]; rfl
    rw [runFor_succ_of_executed fuel h.step he]
    exact ih (h.retire false)

/-! ### The step that does not execute (R82, R86) -/

/-- A step that does not execute faults, or it is a normal stop, and the stopped state stops in the same way again. -/
theorem step_cases_of_not_executed {s : State} (h : executed (step s) = false) :
    (∃ f, step s = .fault f) ∨ ∃ r, step s = .next (s.stop r) ∧ step (s.stop r) = .next (s.stop r) := by
  by_cases hr : s.pcInRange
  · cases hslot : s.slotAt s.pcSlot with
    | error e => exact .inl ⟨_, step_of_illegal hr hslot⟩
    | ok slot =>
      cases slot with
      | empty => exact .inr ⟨.stopEmpty, step_of_empty hr hslot, step_of_empty (s := s.stop .stopEmpty) hr hslot⟩
      | instr i =>
        by_cases hi : i = .hlt
        · subst hi
          exact .inr ⟨.stopHalt, step_of_instr hr hslot, step_of_instr (s := s.stop .stopHalt) hr hslot⟩
        · obtain ⟨t, ht⟩ := exec_total hr i
          have he : executed (.next t) = true := executed_iff.mpr (exec_report hi ht)
          rw [step_of_instr hr hslot, ht, he] at h
          cases h
  · exact .inl ⟨_, step_of_not_pcInRange hr⟩

/-- A step that does not execute changes nothing but the outputs (R82). -/
theorem stateAfter_arch_of_not_executed {s : State} (h : executed (step s) = false) :
    (stateAfter s (step s)).arch = s.arch := by
  rcases step_cases_of_not_executed h with ⟨f, hf⟩ | ⟨r, hs, -⟩
  · rw [hf]; rfl
  · rw [hs]; rfl

/-- After a step that does not execute, the next one reports the same. -/
theorem reportOf_step_stateAfter_of_not_executed {s : State} (h : executed (step s) = false) :
    reportOf (step (stateAfter s (step s))) = reportOf (step s) := by
  rcases step_cases_of_not_executed h with ⟨f, hf⟩ | ⟨r, hs, hagain⟩
  · simp only [hf, stateAfter]
  · simp only [hs, hagain, stateAfter]

/-! ### The states a run passes (R86) -/

theorem Reached.head {s t u : State} (hs : Machine.step s = .next t) (h : Reached t u) : Reached s u := by
  induction h with
  | start => exact .step .start hs
  | step _ hstep ih => exact .step ih hstep

theorem Reached.stateAfter {s t : State} (h : Reached s t) : Reached s (stateAfter t (Machine.step t)) := by
  cases ht : Machine.step t with
  | next u => exact .step h ht
  | fault f => exact h
  | refused r => exact h

/-- A run ends at a reached state whose step does not execute. -/
theorem RunsTo.exists_reached {s : State} {e : RunEnd} (h : RunsTo s e) :
    ∃ t, Reached s t ∧ executed (step t) = false ∧ e = endAt t := by
  obtain ⟨fuel, hrun⟩ := h
  induction fuel generalizing s with
  | zero => cases hrun
  | succ fuel ih =>
    cases he : executed (step s) with
    | true =>
      obtain ⟨t, ht⟩ := exists_next_of_executed he
      rw [runFor_succ_of_executed fuel ht he] at hrun
      obtain ⟨u, hu, hend⟩ := ih hrun
      exact ⟨u, hu.head ht, hend⟩
    | false =>
      rw [runFor_succ_of_not_executed fuel he] at hrun
      exact ⟨s, .start, he, (Option.some_inj.mp hrun).symm⟩

/-- A run from the state after a step ends as the run from the state before it. A stop is such a step too: the stopped
state stops again, with the same end. -/
theorem RunsTo.before_step {s t : State} {e : RunEnd} (hs : step s = .next t) (h : RunsTo t e) : RunsTo s e := by
  cases he : executed (step s) with
  | true =>
    obtain ⟨fuel, hrun⟩ := h
    exact ⟨fuel + 1, (runFor_succ_of_executed fuel hs he).trans hrun⟩
  | false =>
    have hagain : step t = .next t := by
      rcases step_cases_of_not_executed he with ⟨f, hf⟩ | ⟨r, hstop, hagain⟩
      · rw [hf] at hs
        cases hs
      · obtain rfl : s.stop r = t := by simpa [hstop] using hs
        exact hagain
    have hend : endAt t = endAt s := by simp only [endAt, hs, hagain, stateAfter]
    have hte : endAt t = e := h.unique (runsTo_endAt (by rw [hagain, ← hs, he]))
    rw [← hte, hend]
    exact runsTo_endAt he

theorem Reached.runsTo {s t : State} {e : RunEnd} (h : Reached s t) (ht : RunsTo t e) : RunsTo s e := by
  induction h with
  | start => exact ht
  | step _ hs ih => exact ih (ht.before_step hs)

end Sys2Proof.Machine

namespace Sys2Proof.Claims

open Sys2Proof.Machine

/-- Settles O10: the step at each kind of slot, and for the other instructions that they have a meaning and
are reported as executed. -/
theorem stepResults : Obligations.StepResults := by
  intro s
  refine ⟨step_of_not_pcInRange, fun hr e he => step_of_illegal hr he, step_of_empty, step_of_instr,
    fun hr i hi hslot => ?_, executed_iff⟩
  have hstep := step_of_instr hr hslot
  obtain ⟨t, ht⟩ := exec_total hr i
  obtain ⟨diag, hreport⟩ := exec_report hi ht
  exact ⟨hstep, t, diag, hstep.trans ht, hreport⟩

/-- Settles O14: a taken jump goes to its target, HLT stays, and every other instruction advances within the range of
the pc. -/
theorem pcRule : Obligations.PcRule := by
  intro s t i hr hslot hstep
  rw [step_of_instr hr hslot] at hstep
  rcases exec_jumps_or_advances hstep with ⟨d, htaken, rfl⟩ | ⟨hi, hnone, hpc, -⟩ | ⟨rfl, rfl⟩
  · exact (pcAfter_of_takenJump htaken).symm
  · rw [hpc, pcAfter_of_not_takenJump hi hnone, toInt_pc_add_one hr]
  · rfl

/-- Settles O15: a step that advances moves the pc, so only a taken jump can keep it; a self jump is `SelfJump`. -/
theorem onlySelfJumpKeepsPc : Obligations.OnlySelfJumpKeepsPc := by
  intro s t hstep hexec
  obtain ⟨hr, i, hi, hdone⟩ := executed_step_cases hstep hexec
  have hself : (∃ j, s.slotAt s.pcSlot = .ok (.instr j) ∧ takenJump j s s.pc) ↔ takenJump i s s.pc := by simp [hi]
  rw [hself]
  rcases hdone with ⟨d, htaken, rfl⟩ | ⟨hnone, hpc⟩
  · have hkept : d = s.pc ↔ takenJump i s s.pc := ⟨fun h => h ▸ htaken, takenJump_unique htaken⟩
    refine ⟨hkept, ?_⟩
    rintro (rfl : d = s.pc)
    exact ⟨rfl, SelfJump.runsForever ⟨hr, i, hi, htaken⟩⟩
  · have hmoved : t.pc ≠ s.pc := by simp [hpc]
    exact ⟨⟨fun h => absurd h hmoved, fun h => absurd h (hnone s.pc)⟩, fun h => absurd h hmoved⟩

/-- Settles O48: a run ends at the reached state whose step does not execute, and every reached state with such a step
ends it so. -/
theorem runEndsAtTheFirstStop : Obligations.RunEndsAtTheFirstStop := by
  constructor
  · intro s e hrun
    obtain ⟨t, hreached, hstop, rfl⟩ := hrun.exists_reached
    have hreport := reportOf_step_stateAfter_of_not_executed hstop
    refine ⟨hreached.stateAfter, (executed_congr hreport).trans hstop, hreport.symm, fun e' he' => hrun.unique he',
      fun hs => ?_⟩
    rw [(runsTo_endAt hs).unique hrun]
    exact stateAfter_arch_of_not_executed hs
  · intro s t hreached hstop
    exact ⟨endAt t, hreached.runsTo (runsTo_endAt hstop), rfl, stateAfter_arch_of_not_executed hstop⟩

end Sys2Proof.Claims

/-! PROOFS. Family 41_data_declaration: DEC (R100, R101). -/

namespace Sys2Proof.Machine

open Sys2Proof.Claims

/-! ### The tokens of a line with one operand (R54) -/

/-- Characters that are not blank are collected into the token begun. -/
theorem tokensFrom_append_of_not_blank {word : List Byte} (h : ∀ c ∈ word, isBlank c = false) (cur : List Byte)
    (rest : Line) : tokensFrom cur (word ++ rest) = tokensFrom (word.reverse ++ cur) rest := by
  induction word generalizing cur with
  | nil => rfl
  | cons c word ih =>
    obtain ⟨hc, hword⟩ := List.forall_mem_cons.mp h
    rw [List.cons_append, tokensFrom, if_neg (by simp [hc]), ih hword]
    simp

/-- A blank ends the token begun. -/
theorem tokensFrom_blank {cur : List Byte} (hcur : cur ≠ []) {c : Byte} (hc : isBlank c = true) (rest : Line) :
    tokensFrom cur (c :: rest) = cur.reverse :: tokensFrom [] rest := by
  simp [tokensFrom, hc, hcur]

/-- The end of the line ends the token begun. -/
theorem tokensFrom_nil {cur : List Byte} (hcur : cur ≠ []) : tokensFrom cur [] = [cur.reverse] := by
  simp [tokensFrom, hcur]

/-- Two words with a space between them are two tokens. -/
theorem tokens_word_space_word {word operand : List Byte} (hword : ∀ c ∈ word, isBlank c = false) (hne : word ≠ [])
    (hoperand : ∀ c ∈ operand, isBlank c = false) (hne' : operand ≠ []) :
    tokens (word ++ 32 :: operand) = [word, operand] := by
  calc tokens (word ++ 32 :: operand)
      = tokensFrom word.reverse (32 :: operand) := by
        rw [tokens, tokensFrom_append_of_not_blank hword, List.append_nil]
    _ = word :: tokensFrom [] operand := by
        rw [tokensFrom_blank (by simpa using hne) (by decide), List.reverse_reverse]
    _ = word :: tokensFrom operand.reverse [] := by
        conv_lhs => rw [← List.append_nil operand, tokensFrom_append_of_not_blank hoperand, List.append_nil]
    _ = [word, operand] := by
        rw [tokensFrom_nil (by simpa using hne'), List.reverse_reverse]

/-- The line of a keyword and a one-character name (R54 to R56). -/
theorem loadLine_name {keyword : List Byte} (hkeyword : ∀ c ∈ keyword, isBlank c = false) (hne : keyword ≠ [])
    {c : Byte} (hc : isNameChar c = true) :
    loadLine (keyword ++ [32, c]) = slotOfTokens keyword (some [c]) := by
  have hblank : isBlank c = false := by
    simp only [isNameChar, Bool.and_eq_true, Bool.not_eq_true'] at hc
    exact hc.1
  rw [loadLine, tokens_word_space_word hkeyword hne (by simpa using hblank) (by simp)]
  rfl

/-! ### The pc at a slot's address (R14) -/

theorem toNat_setWidth_addr (p : Addr) : (p.setWidth 30).toNat = p.toNat :=
  BitVec.toNat_setWidth_of_le (by omega)

/-- Every slot address is a pc in 0..255. -/
theorem State.pcInRange_of_pc {s : State} {p : Addr} (h : s.pc = p.setWidth 30) : s.pcInRange := by
  have hlt := p.isLt
  have hint : s.pc.toInt = p.toNat := by
    rw [h, BitVec.toInt_eq_toNat_of_lt (by rw [toNat_setWidth_addr]; omega), toNat_setWidth_addr]
  unfold State.pcInRange
  omega

theorem State.pcSlot_of_pc {s : State} {p : Addr} (h : s.pc = p.setWidth 30) : s.pcSlot = p := by
  rw [State.pcSlot, h, toNat_setWidth_addr, BitVec.ofNat_toNat, BitVec.setWidth_eq]

/-! ### DEC's first execution (R100) -/

/-- What the first execution of a DEC of the name `c` makes of the state. -/
def State.firstDec (s : State) (c : SymCode) : State :=
  (((s.bindName c s.pcSlot).declareOwn s.pcSlot).advance).retire false

/-- An undeclared DEC has one outcome at a pc in 0..255. -/
theorem exec_dec_undeclared {s : State} (hr : s.pcInRange) (c : SymCode) (x : Word) :
    exec (.dec c false x) s = .next (s.firstDec c) := by
  simp [exec, execDec, State.slotAddr_of_inRange hr, State.firstDec]

/-- A declared DEC only advances the pc. -/
theorem exec_dec_declared (s : State) (c : SymCode) (x : Word) :
    exec (.dec c true x) s = .next { s with pc := s.pc + 1, report := ranWith false } := rfl

section FirstDec

variable (s : State) (c : SymCode)

/-- The name is bound to the pc's slot; every other name keeps its binding. -/
theorem State.firstDec_lookup (k : SymCode) :
    (s.firstDec c).sym.lookup k = if k = c then some s.pcSlot else s.sym.lookup k :=
  SymbolTable.lookup_bind s.sym c k s.pcSlot

theorem State.firstDec_read_other {q : Addr} (h : q ≠ s.pcSlot) : (s.firstDec c).mem.read q = s.mem.read q :=
  Memory.read_write_other s.mem h _

theorem State.firstDec_slotAt_other {q : Addr} (h : q ≠ s.pcSlot) : (s.firstDec c).slotAt q = s.slotAt q := by
  rw [State.slotAt, s.firstDec_read_other c h, State.slotAt]

/-- The DEC's own slot becomes declared, with payload 0. -/
theorem State.firstDec_slotAt_own {x : Word} (h : s.slotAt s.pcSlot = .ok (.instr (.dec c false x))) :
    (s.firstDec c).slotAt s.pcSlot = .ok (.instr (.dec c true 0)) := by
  have hread : (s.firstDec c).mem.read s.pcSlot = withVal (withDcl (s.mem.read s.pcSlot) true) 0 :=
    Memory.read_write_same s.mem s.pcSlot _
  rw [State.slotAt, hread]
  exact decode_declare h

/-- Beside the two tables, only the pc and the outputs change. -/
theorem State.firstDec_frame : s.firstDec c =
    { s with sym := (s.firstDec c).sym, mem := (s.firstDec c).mem, pc := s.pc + 1, report := ranWith false } := rfl

end FirstDec

/-- A step that reaches a declared DEC slot only advances the pc (R101). -/
theorem step_at_declared {s : State} {p : Addr} {c : SymCode} {x : Word} (hpc : s.pc = p.setWidth 30)
    (h : s.slotAt p = .ok (.instr (.dec c true x))) :
    step s = .next { s with pc := p.setWidth 30 + 1, report := ranWith false } := by
  rw [step_of_instr (State.pcInRange_of_pc hpc) (by rwa [State.pcSlot_of_pc hpc]), exec_dec_declared, hpc]

end Sys2Proof.Machine

namespace Sys2Proof.Claims

open Sys2Proof.Machine

/-- The word of a DEC slot as a number (R65, R66). -/
theorem toNat_encode_dec (c : SymCode) (d : Bool) (x : Word) :
    (encode (.dec c d x)).toNat = 2 ^ 43 + d.toNat * 2 ^ 38 + c.toNat * 2 ^ 30 + x.toNat := by
  rw [encode, toNat_packSlot]
  simp

/-- Settles O34: the word from its fields, the line from its two tokens, and the first and the later executions. -/
theorem decDeclaresItsName : Obligations.DecDeclaresItsName := by
  intro c x s
  refine ⟨fun d => toNat_encode_dec c d x, fun hc => ?_, fun hr hslot => ?_, exec_dec_declared s c x⟩
  · exact (loadLine_name (keyword := ascii "DEC") (by decide) (by decide) hc).trans (slotOfTokens_dec _)
  · refine ⟨s.firstDec c, exec_dec_undeclared hr c x, ?_, fun k hk => ?_, s.firstDec_slotAt_own c hslot,
      fun q hq => s.firstDec_read_other c hq, s.firstDec_frame c⟩
    · rw [s.firstDec_lookup, if_pos rfl]
    · rw [s.firstDec_lookup, if_neg hk]

/-- Settles O35: the first execution of the second DEC leaves slot `p` alone, so `p` is still declared when the pc comes
back to it. -/
theorem secondDecRebinds : Obligations.SecondDecRebinds := by
  intro c x y p s hr hp _ hfirst hsecond
  have hkept : (s.firstDec c).slotAt p = .ok (.instr (.dec c true x)) :=
    (s.firstDec_slotAt_other c hp).trans hfirst
  refine ⟨s.firstDec c, (step_of_instr hr hsecond).trans (exec_dec_undeclared hr c y), ?_,
    s.firstDec_slotAt_own c hsecond, hkept, step_at_declared rfl hkept⟩
  rw [s.firstDec_lookup, if_pos rfl]

end Sys2Proof.Claims

/-! PROOFS. Family 42_load_store: LDA, LDB, LDI, ST, XCH (R110 to R114). -/

namespace Sys2Proof

/-! ### The numbers of the words with one free field (R65, R66) -/

theorem toNat_packSlot_sym (n : BitVec 4) (c : SymCode) :
    (packSlot true n false c 0).toNat = 2 ^ 43 + n.toNat * 2 ^ 39 + c.toNat * 2 ^ 30 := by
  simp [toNat_packSlot]

theorem toNat_packSlot_val (n : BitVec 4) (x : Word) :
    (packSlot true n false 0 x).toNat = 2 ^ 43 + n.toNat * 2 ^ 39 + x.toNat := by
  simp [toNat_packSlot]

end Sys2Proof

namespace Sys2Proof.Machine

open Sys2Proof.Claims

/-! ### The line of a keyword and a decimal integer (R54, R57) -/

theorem not_blank_of_digitValue {c : Byte} {d : Nat} (h : digitValue c = some d) : isBlank c = false := by
  rw [digitValue, Option.ite_none_right_eq_some] at h
  obtain ⟨⟨hlo, -⟩, -⟩ := h
  have hne : ∀ b : Byte, b.toNat < 48 → c ≠ b := by
    rintro b hb rfl
    omega
  simp [isBlank, hne]

theorem not_blank_of_digitsFrom {acc n : Nat} {tok : List Byte} (h : digitsFrom acc tok = some n) :
    ∀ c ∈ tok, isBlank c = false := by
  induction tok generalizing acc with
  | nil => simp
  | cons c rest ih =>
    rw [digitsFrom] at h
    split at h
    · next hd => exact List.forall_mem_cons.mpr ⟨not_blank_of_digitValue hd, ih h⟩
    · cases h

theorem not_blank_of_signedToken {negative : Bool} {tok : List Byte} {n : Int} (h : signedToken negative tok = some n) :
    ∀ c ∈ tok, isBlank c = false := by
  cases tok with
  | nil => simp
  | cons c rest =>
    rw [signedToken] at h
    split at h
    · next hn => exact not_blank_of_digitsFrom hn
    · cases h

/-- A decimal integer holds no blank, so it is one token: its sign and its digits are none (R54, R57). -/
theorem not_blank_of_intToken {tok : List Byte} {n : Int} (h : intToken tok = some n) :
    ∀ c ∈ tok, isBlank c = false := by
  cases tok with
  | nil => simp
  | cons c rest =>
    rw [intToken] at h
    split_ifs at h with hminus hplus
    · subst hminus
      exact List.forall_mem_cons.mpr ⟨rfl, not_blank_of_signedToken h⟩
    · subst hplus
      exact List.forall_mem_cons.mpr ⟨rfl, not_blank_of_signedToken h⟩
    · exact not_blank_of_signedToken h

theorem ne_nil_of_intToken {tok : List Byte} {n : Int} (h : intToken tok = some n) : tok ≠ [] := by
  rintro rfl
  cases h

/-- The decimal integer of a data word's signed value is read as that word (R57, R58). -/
theorem intOperand_of_toInt {tok : List Byte} {x : Word} (h : intToken tok = some x.toInt) :
    intOperand (some tok) = .ok x := by
  have hlo := x.le_toInt
  have hhi := x.toInt_lt
  rw [intOperand_of_intToken h, if_pos (by omega), BitVec.ofInt_toInt]

/-- The line of a keyword and a decimal integer (R54, R55, R57). -/
theorem loadLine_int {keyword : List Byte} (hkeyword : ∀ c ∈ keyword, isBlank c = false) (hne : keyword ≠ [])
    {mk : Word → Instr} (hmk : ∀ operand, slotOfTokens keyword operand = withInt operand mk)
    {tok : List Byte} {x : Word} (h : intToken tok = some x.toInt) :
    loadLine (keyword ++ 32 :: tok) = .ok (.instr (mk x)) := by
  calc loadLine (keyword ++ 32 :: tok)
      = slotOfTokens keyword (some tok) := by
        rw [loadLine, tokens_word_space_word hkeyword hne (not_blank_of_intToken h) (ne_nil_of_intToken h)]
        rfl
    _ = .ok (.instr (mk x)) := (hmk _).trans (withInt_of_ok mk (intOperand_of_toInt h))

/-! ### A payload write, read back (R34, R35) -/

@[simp] theorem State.memRead_memWrite_same (s : State) (p : Addr) (x : Word) : (s.memWrite p x).memRead p = x := by
  simp [State.memRead]

theorem State.slotAt_memWrite_same {s : State} {p : Addr} {c : SymCode} {d : Bool} {x : Word}
    (h : s.slotAt p = .ok (.instr (.dec c d x))) (y : Word) :
    (s.memWrite p y).slotAt p = .ok (.instr (.dec c d y)) := by
  rw [State.slotAt, State.memWrite_mem, Memory.read_write_same]
  exact decode_withVal h y

/-! ### What each instruction does (R110 to R114) -/

section Bound

variable {s : State} {c : SymCode} {p : Addr} (hp : s.sym.lookup c = some p)
include hp

theorem exec_lda_bound :
    exec (.lda c) s = .next { s with a := s.memRead p, pc := s.pc + 1, report := ranWith false } := by
  rw [exec, execLda, State.cell, hp]
  rfl

theorem exec_ldb_bound :
    exec (.ldb c) s = .next { s with b := s.memRead p, pc := s.pc + 1, report := ranWith false } := by
  rw [exec, execLdb, State.cell, hp]
  rfl

theorem exec_st_bound :
    exec (.st c) s = .next { s.memWrite p s.a with pc := s.pc + 1, report := ranWith false } := by
  rw [exec, execSt, State.cell, hp]
  rfl

end Bound

/-- The three instructions with a name are one silent no-op where it is unbound (R110, R111, R113). -/
theorem exec_unbound {i : Instr} {s : State} {c : SymCode} (hi : i = .lda c ∨ i = .ldb c ∨ i = .st c)
    (hc : s.sym.lookup c = none) : exec i s = .next { s with pc := s.pc + 1, report := ranWith true } := by
  rcases hi with rfl | rfl | rfl
  · rw [exec, execLda, State.cell, hc]
    rfl
  · rw [exec, execLdb, State.cell, hc]
    rfl
  · rw [exec, execSt, State.cell, hc]
    rfl

theorem exec_ldi (x : Word) (s : State) :
    exec (.ldi x) s = .next { s with a := x, pc := s.pc + 1, report := ranWith false } := rfl

theorem exec_xch (s : State) :
    exec .xch s = .next { s with a := s.b, b := s.a, pc := s.pc + 1, report := ranWith false } := rfl

end Sys2Proof.Machine

namespace Sys2Proof.Claims

open Sys2Proof.Machine

/-- Settles O37: at a DEC slot the payload field that LDA reads is the slot's payload. -/
theorem ldaLoadsA : Obligations.LdaLoadsA := by
  intro c s
  refine ⟨toNat_packSlot_sym 1 c, fun hc => ?_, fun p => exec_lda_bound, fun p k d x hp hslot => ?_,
    exec_unbound (.inl rfl)⟩
  · exact (loadLine_name (keyword := ascii "LDA") (by decide) (by decide) hc).trans (slotOfTokens_lda _)
  · rw [exec_lda_bound hp, memRead_of_slotAt hslot]

/-- Settles O38: as O37, with B. -/
theorem ldbLoadsB : Obligations.LdbLoadsB := by
  intro c s
  refine ⟨toNat_packSlot_sym 2 c, fun hc => ?_, fun p => exec_ldb_bound, fun p k d x hp hslot => ?_,
    exec_unbound (.inr (.inl rfl))⟩
  · exact (loadLine_name (keyword := ascii "LDB") (by decide) (by decide) hc).trans (slotOfTokens_ldb _)
  · rw [exec_ldb_bound hp, memRead_of_slotAt hslot]

/-- Settles O39: every decimal integer of a data word's value is one token that is read as that word. -/
theorem ldiLoadsTheImmediate : Obligations.LdiLoadsTheImmediate := by
  intro x s
  exact ⟨toNat_packSlot_val 3 x,
    fun tok => loadLine_int (keyword := ascii "LDI") (by decide) (by decide) slotOfTokens_ldi, exec_ldi x s⟩

/-- Settles O40: a bound ST is one payload write, which is read back at its slot and leaves every other slot alone. -/
theorem stStoresA : Obligations.StStoresA := by
  intro c s
  refine ⟨toNat_packSlot_sym 4 c, fun hc => ?_, fun p hp => ?_, exec_unbound (.inr (.inr rfl))⟩
  · exact (loadLine_name (keyword := ascii "ST") (by decide) (by decide) hc).trans (slotOfTokens_st _)
  · exact ⟨_, exec_st_bound hp, s.memRead_memWrite_same p s.a,
      fun k d x hslot => State.slotAt_memWrite_same hslot s.a,
      fun q hq => Memory.read_write_other s.mem hq _, rfl⟩

/-- Settles O41: two exchanges give A and B their own values back. -/
theorem xchSwaps : Obligations.XchSwaps :=
  ⟨toNat_packSlot_val 5 0, rfl, fun s => ⟨exec_xch s, _, _, exec_xch s, exec_xch _, rfl, rfl⟩⟩

end Sys2Proof.Claims

/-! PROOFS. Family 43_jump: JMP, JZS, JVS (R120 to R122). -/

namespace Sys2Proof.Machine

/-- A jump whose flag is 0 only advances the pc, whatever its target (R121, R122). -/
theorem exec_of_untaken_jump {i : Instr} {s : State} {d : Word}
    (h : i = .jzs d ∧ s.z = false ∨ i = .jvs d ∧ s.v = false) :
    exec i s = .next { s with pc := s.pc + 1, report := ranWith false } := by
  rcases h with ⟨rfl, hz⟩ | ⟨rfl, hv⟩
  · rw [exec, execJzs, if_neg (by simp [hz])]
    rfl
  · rw [exec, execJvs, if_neg (by simp [hv])]
    rfl

end Sys2Proof.Machine

namespace Sys2Proof.Claims

open Sys2Proof.Machine

/-- Settles O43: JMP is always taken, and a taken jump only sets the pc. -/
theorem jmpJumps : Obligations.JmpJumps := by
  intro d s
  exact ⟨toNat_packSlot_val 6 d,
    fun tok => loadLine_int (keyword := ascii "JMP") (by decide) (by decide) slotOfTokens_jmp,
    exec_of_takenJump (.inl rfl)⟩

/-- Settles O44: JZS is taken when Z is 1, and only advances the pc when Z is 0. -/
theorem jzsJumpsOnZero : Obligations.JzsJumpsOnZero := by
  intro d s
  exact ⟨toNat_packSlot_val 7 d,
    fun tok => loadLine_int (keyword := ascii "JZS") (by decide) (by decide) slotOfTokens_jzs,
    fun hz => exec_of_takenJump (.inr (.inl ⟨rfl, hz⟩)),
    fun hz => exec_of_untaken_jump (.inl ⟨rfl, hz⟩)⟩

/-- Settles O45: JVS is taken when V is 1, and only advances the pc when V is 0. -/
theorem jvsJumpsOnOverflow : Obligations.JvsJumpsOnOverflow := by
  intro d s
  exact ⟨toNat_packSlot_val 8 d,
    fun tok => loadLine_int (keyword := ascii "JVS") (by decide) (by decide) slotOfTokens_jvs,
    fun hv => exec_of_takenJump (.inr (.inr ⟨rfl, hv⟩)),
    fun hv => exec_of_untaken_jump (.inr ⟨rfl, hv⟩)⟩

end Sys2Proof.Claims

/-! PROOFS. Family 44_arithmetic: `wrap30` and ADD (R130, R131). -/

namespace Sys2Proof.Machine

/-- One wrap is enough for every `t` from `2 * intMin` to `2 * intMax`, the range of the sum of two data values
(R130). -/
theorem wrap30_range {t : Int} (hlo : -1073741824 ≤ t) (hhi : t ≤ 1073741822) :
    -536870912 ≤ (wrap30 t).1 ∧ (wrap30 t).1 ≤ 536870911 := by
  rw [wrap30_eq]
  split
  case isTrue above =>
    show -536870912 ≤ t - 1073741824 ∧ t - 1073741824 ≤ 536870911
    omega
  case isFalse notAbove =>
    split
    case isTrue below =>
      show -536870912 ≤ t + 1073741824 ∧ t + 1073741824 ≤ 536870911
      omega
    case isFalse notBelow => exact ⟨not_lt.mp notBelow, not_lt.mp notAbove⟩

/-- ADD writes the ALU's result to A, Z and V, and only advances the pc besides (R131). -/
theorem exec_add (s : State) :
    exec .add s = .next { s with
      a := (aluAdd s.a s.b).sum
      z := (aluAdd s.a s.b).zero
      v := (aluAdd s.a s.b).overflow
      pc := s.pc + 1
      report := ranWith false } := rfl

end Sys2Proof.Machine

namespace Sys2Proof.Claims

open Sys2Proof.Machine

/-- Settles O29. -/
theorem wrapThirty : Obligations.WrapThirty :=
  fun t => ⟨wrap30_eq t, wrap30_range⟩

/-- Settles O30: the sum of two data words wraps into range, so the new A, a word, holds it as a signed value; V and Z
are the ALU's own. -/
theorem addAddsBToA : Obligations.AddAddsBToA := by
  refine ⟨toNat_packSlot_val 9 0, rfl, fun s => ?_⟩
  have hz : (aluAdd s.a s.b).zero = true ↔ (wrap30 (s.a.toInt + s.b.toInt)).1 = 0 := decide_eq_true_iff
  exact ⟨_, exec_add s, aluAdd_sum_toInt s.a s.b, rfl, hz, rfl⟩

end Sys2Proof.Claims

/-! PROOFS. Family 45_halt: HLT (R140). -/

namespace Sys2Proof.Machine

/-- HLT is the shared stop, and nothing else (R140). -/
theorem exec_hlt (s : State) : exec .hlt s = .next (s.stop .stopHalt) := rfl

/-- A step at a pc that holds HLT is the stop of R140. -/
theorem step_of_hlt {s : State} (hr : s.pcInRange) (hslot : s.slotAt s.pcSlot = .ok (.instr .hlt)) :
    step s = .next (s.stop .stopHalt) :=
  (step_of_instr hr hslot).trans (exec_hlt s)

/-- A stop leaves the pc and memory, so a step after the stop on HLT fetches the same HLT and leaves the stopped state
as it is. -/
theorem step_stop_of_hlt {s : State} (hr : s.pcInRange) (hslot : s.slotAt s.pcSlot = .ok (.instr .hlt)) :
    step (s.stop .stopHalt) = .next (s.stop .stopHalt) :=
  step_of_hlt (s := s.stop .stopHalt) hr hslot

end Sys2Proof.Machine

namespace Sys2Proof.Claims

open Sys2Proof.Machine

/-- Settles O47: HLT is a stop, and the stopped state is a fixed point of the step. -/
theorem hltStops : Obligations.HltStops := by
  refine ⟨toNat_packSlot_val 10 0, rfl, fun s => ⟨exec_hlt s, fun hr hslot => ?_⟩⟩
  exact ⟨step_of_hlt hr hslot, step_stop_of_hlt hr hslot⟩

end Sys2Proof.Claims

/-! PROOFS. Family 60_exceptions: the two faults (R153, R154). -/

namespace Sys2Proof.Machine

open Sys2Proof.Claims

/-! ### When a step faults (R80, R153, R154) -/

/-- Everything a step that faults can have met: both faults stand in the fetch, since an instruction that is fetched
has a next state. -/
theorem step_fault_cases {s : State} {f : Fault} (h : step s = .fault f) :
    (f = .pcRange ∧ ¬ s.pcInRange) ∨
    (f = .illegalSlot ∧ s.pcInRange ∧ ∃ e, s.slotAt s.pcSlot = .error e) := by
  by_cases hr : s.pcInRange
  · cases hslot : s.slotAt s.pcSlot with
    | error e =>
      rw [step_of_illegal hr hslot] at h
      cases h
      exact .inr ⟨rfl, hr, e, rfl⟩
    | ok slot =>
      cases slot with
      | empty =>
        rw [step_of_empty hr hslot] at h
        cases h
      | instr i =>
        obtain ⟨t, ht⟩ := exec_total hr i
        rw [step_of_instr hr hslot, ht] at h
        cases h
  · rw [step_of_not_pcInRange hr] at h
    cases h
    exact .inl ⟨rfl, hr⟩

theorem step_pcRange_iff {s : State} : step s = .fault .pcRange ↔ ¬ s.pcInRange := by
  refine ⟨fun h => ?_, step_of_not_pcInRange⟩
  obtain ⟨-, hr⟩ | ⟨hf, -⟩ := step_fault_cases h
  · exact hr
  · cases hf

theorem step_illegalSlot_iff {s : State} :
    step s = .fault .illegalSlot ↔ s.pcInRange ∧ ∃ e, s.slotAt s.pcSlot = .error e := by
  refine ⟨fun h => ?_, fun ⟨hr, _, he⟩ => step_of_illegal hr he⟩
  obtain ⟨hf, -⟩ | ⟨-, hillegal⟩ := step_fault_cases h
  · cases hf
  · exact hillegal

theorem stateAfter_of_fault {s : State} {f : Fault} (h : step s = .fault f) : stateAfter s (step s) = s := by
  rw [h]
  rfl

/-! ### How the pc leaves 0..255 (R84, R123) -/

/-- Advancing leaves 0..255 at its upper end only. -/
theorem pc_eq_255_of_advance_leaves {s : State} (hr : s.pcInRange) (h : ¬ s.advance.pcInRange) : s.pc = 255 := by
  rw [State.pcInRange, State.advance_pc, toInt_pc_add_one hr] at h
  have hpc : s.pc.toInt = (255 : Word).toInt := by
    rw [show (255 : Word).toInt = 255 from rfl]
    omega
  exact BitVec.eq_of_toInt_eq hpc

/-! ### The legal memory (R68, R154) -/

/-- Every slot holds a legal slot word: the part `State.Inv.legal` of the invariant, as a property of the memory. -/
def Memory.Legal (m : Memory) : Prop := ∀ p, ∃ slot, decodeSlot (m.read p) = .ok slot

theorem Memory.legal_nil : Memory.Legal [] := fun _ => ⟨.empty, decodeSlot_encodeSlot .empty⟩

theorem Memory.Legal.write {m : Memory} (h : m.Legal) (p : Addr) {w : SlotWord} {slot : Slot}
    (hw : decodeSlot w = .ok slot) : (m.write p w).Legal := by
  intro q
  rw [Memory.read_write]
  split
  · exact ⟨slot, hw⟩
  · exact h q

/-- The loader places encoded slots only. -/
theorem Memory.Legal.fill {m : Memory} (h : m.Legal) (p : Nat) (slots : List Slot) : (m.fill p slots).Legal := by
  induction slots generalizing m p with
  | nil => exact h
  | cons slot rest ih => exact ih (h.write _ (decodeSlot_encodeSlot slot)) _

theorem State.load_legal {s s₁ : State} {lines : List Line} (h : s.load lines = .next s₁) : s₁.mem.Legal := by
  obtain ⟨slots, -, rfl⟩ := State.load_next h
  exact Memory.legal_nil.fill 0 slots

/-- Both writes of an instruction rewrite a DEC slot as a DEC slot: a first DEC its own, and a store that of a bound
name, which is one because the bindings are declared. -/
theorem Memory.Legal.exec {s t : State} {i : Instr} (h : s.mem.Legal) (hb : s.BindingsDeclared)
    (hi : s.slotAt s.pcSlot = .ok (.instr i)) (he : exec i s = .next t) : t.mem.Legal := by
  rcases exec_tables he with ⟨-, hmem⟩ | ⟨c, x, rfl, -, hmem⟩ | ⟨c, p, rfl, hp, -, hmem⟩
  · rw [hmem]
    exact h
  · rw [hmem]
    exact h.write s.pcSlot (decode_declare hi)
  · obtain ⟨x, hx⟩ := hb c p hp
    rw [hmem]
    exact h.write p (decode_withVal hx s.a)

theorem Memory.Legal.step {s t : State} (h : s.mem.Legal) (hb : s.BindingsDeclared) (hs : step s = .next t) :
    t.mem.Legal := by
  obtain ⟨-, ⟨-, rfl⟩ | ⟨i, hi, he⟩⟩ := step_next_cases hs
  · exact h
  · exact h.exec hb hi he

/-- In every state reached from a load, memory holds legal slot words only; the bindings are carried along. -/
theorem Reached.legal {s s₁ t : State} {lines : List Line} (hload : s.load lines = .next s₁) (h : Reached s₁ t) :
    t.mem.Legal := by
  have hboth : t.mem.Legal ∧ t.BindingsDeclared :=
    h.of_step_keeps (P := fun u => u.mem.Legal ∧ u.BindingsDeclared)
      (fun _ _ ⟨hl, hb⟩ hs => ⟨hl.step hb hs, hb.step hs⟩)
      ⟨State.load_legal hload, State.load_bindingsDeclared hload⟩
  exact hboth.1

theorem step_ne_illegalSlot_of_legal {s : State} (h : s.mem.Legal) : step s ≠ .fault .illegalSlot := by
  intro hstep
  obtain ⟨-, e, he⟩ := step_illegalSlot_iff.mp hstep
  obtain ⟨slot, hslot⟩ := h s.pcSlot
  rw [State.slotAt, hslot] at he
  cases he

end Sys2Proof.Machine

namespace Sys2Proof.Claims

open Sys2Proof.Machine

/-- Settles O12: a stop keeps the pc, so a step that takes it out of 0..255 took a jump, whose target is the new pc, or
advanced from 255. -/
theorem pcRangeFault : Obligations.PcRangeFault := by
  refine ⟨fun s => step_pcRange_iff, fun s hr => stateAfter_of_fault (step_of_not_pcInRange hr),
    fun s t hr hstep hout => ?_⟩
  obtain ⟨-, ⟨-, rfl⟩ | ⟨i, hi, he⟩⟩ := step_next_cases hstep
  · exact absurd hr hout
  · rcases exec_jumps_or_advances he with ⟨d, htaken, rfl⟩ | ⟨-, -, hpc, -⟩ | ⟨-, rfl⟩
    · exact .inr ⟨i, d, hi, htaken, rfl, hout⟩
    · have hleaves : ¬ s.advance.pcInRange := by
        rwa [State.pcInRange, hpc, ← State.advance_pc] at hout
      have h255 := pc_eq_255_of_advance_leaves hr hleaves
      refine .inl ⟨h255, ?_⟩
      rw [hpc, h255]
      rfl
    · exact absurd hr hout

/-- Settles O13: the fault is the fetch's, and `Memory.Legal` is kept in every state reached from a load. -/
theorem illegalSlotFault : Obligations.IllegalSlotFault :=
  ⟨fun _ => step_illegalSlot_iff, fun _ => stateAfter_of_fault,
    fun _ _ _ _ hload ht => step_ne_illegalSlot_of_legal (ht.legal hload)⟩

end Sys2Proof.Claims

/-! PROOFS. Family 70_reset_and_hazards: the load (R170). -/

namespace Sys2Proof.Machine

/-! ### What the load clears (R170, actions 1 to 3) -/

/-- Clearing leaves nothing of the state. -/
theorem State.clear_eq_reset (s : State) : s.clear = State.reset := rfl

theorem State.load_eq_load_reset (s : State) (lines : List Line) : s.load lines = State.reset.load lines := by
  rw [State.load, State.load, s.clear_eq_reset, State.reset.clear_eq_reset]

/-! ### The DEC slots a line can give (R55, R60) -/

theorem withInt_ok_iff {operand : Option (List Byte)} {mk : Word → Instr} {i : Instr} :
    withInt operand mk = .ok (.instr i) ↔ ∃ x, intOperand operand = .ok x ∧ mk x = i := by
  cases hop : intOperand operand with
  | ok x => simp [withInt_of_ok mk hop]
  | error r => simp [withInt_of_error mk hop]

/-- The keyword `DEC` gives its slot undeclared, with payload 0; no other keyword gives a DEC slot. -/
theorem undeclared_of_slotOfTokens_eq_dec {keyword : List Byte} {operand : Option (List Byte)} {c : SymCode} {d : Bool}
    {x : Word} (h : slotOfTokens keyword operand = .ok (.instr (.dec c d x))) : d = false ∧ x = 0 := by
  by_cases hdec : keyword = ascii "DEC"
  · rw [hdec, slotOfTokens_dec] at h
    cases h
    exact ⟨rfl, rfl⟩
  · rw [slotOfTokens, if_neg hdec] at h
    split_ifs at h <;> simp [withInt_ok_iff] at h

theorem undeclared_of_loadLine_eq_dec {line : Line} {c : SymCode} {d : Bool} {x : Word}
    (h : loadLine line = .ok (.instr (.dec c d x))) : d = false ∧ x = 0 := by
  unfold loadLine at h
  split at h
  · cases h
  · exact undeclared_of_slotOfTokens_eq_dec h

/-! ### Where the slots of a loaded memory come from (R61) -/

theorem exists_line_of_mem_assemble {lines : List Line} {slots : List Slot} (h : assemble lines = .ok slots)
    {slot : Slot} (hslot : slot ∈ slots) : ∃ line ∈ lines, loadLine line = .ok slot := by
  induction lines generalizing slots with
  | nil =>
    cases h
    cases hslot
  | cons line rest ih =>
    rw [assemble] at h
    split at h
    · next first others hfirst hothers =>
      cases h
      rcases List.mem_cons.mp hslot with rfl | hmem
      · exact ⟨line, List.mem_cons_self, hfirst⟩
      · obtain ⟨l, hl, hload⟩ := ih hothers hmem
        exact ⟨l, List.mem_cons_of_mem _ hl, hload⟩
    · cases h
    · cases h

/-- A fill leaves at each address the word before it or one of the slots placed. -/
theorem Memory.read_fill_cases (m : Memory) (p : Nat) (slots : List Slot) (q : Addr) :
    (m.fill p slots).read q = m.read q ∨ ∃ slot ∈ slots, (m.fill p slots).read q = encodeSlot slot := by
  induction slots generalizing m p with
  | nil => exact .inl rfl
  | cons slot rest ih =>
    rw [Memory.fill]
    rcases ih (m.write (BitVec.ofNat 8 p) (encodeSlot slot)) (p + 1) with hkept | ⟨placed, hmem, hread⟩
    · rw [hkept, Memory.read_write]
      split
      · exact .inr ⟨slot, List.mem_cons_self, rfl⟩
      · exact .inl rfl
    · exact .inr ⟨placed, List.mem_cons_of_mem _ hmem, hread⟩

/-- After a load each slot is empty or that of a line. -/
theorem State.load_slotAt_cases {s t : State} {lines : List Line} (h : s.load lines = .next t) (p : Addr) :
    t.slotAt p = .ok .empty ∨ ∃ line ∈ lines, ∃ slot, loadLine line = .ok slot ∧ t.slotAt p = .ok slot := by
  obtain ⟨slots, hslots, rfl⟩ := State.load_next h
  rcases Memory.read_fill_cases [] 0 slots p with hempty | ⟨slot, hmem, hread⟩
  · left
    rw [State.slotAt, hempty]
    exact decodeSlot_encodeSlot .empty
  · obtain ⟨line, hline, hload⟩ := exists_line_of_mem_assemble hslots hmem
    refine .inr ⟨line, List.mem_of_mem_take hline, slot, hload, ?_⟩
    rw [State.slotAt, hread, decodeSlot_encodeSlot]

theorem State.load_undeclared {s t : State} {lines : List Line} (h : s.load lines = .next t) {p : Addr} {c : SymCode}
    {d : Bool} {x : Word} (hp : t.slotAt p = .ok (.instr (.dec c d x))) : d = false ∧ x = 0 := by
  rcases State.load_slotAt_cases h p with hempty | ⟨line, -, slot, hload, hslot⟩
  · rw [hempty] at hp
    cases hp
  · rw [hslot] at hp
    cases hp
    exact undeclared_of_loadLine_eq_dec hload

end Sys2Proof.Machine

namespace Sys2Proof.Claims

open Sys2Proof.Machine

/-- Settles O51: clearing forgets the state, the fill writes memory alone, and the only DEC slots a line can give are
undeclared ones. -/
theorem loadResetsEverything : Obligations.LoadResetsEverything := by
  refine fun s s' lines => ⟨?_, fun t h => ?_⟩
  · rw [s.load_eq_load_reset, s'.load_eq_load_reset]
  · have hundeclared : ∀ p c d x, t.slotAt p = .ok (.instr (.dec c d x)) → d = false ∧ x = 0 :=
      fun _ _ _ _ hp => State.load_undeclared h hp
    obtain ⟨slots, hslots, rfl⟩ := State.load_next h
    exact ⟨rfl, rfl, rfl, rfl, rfl, SymbolTable.lookup_nil, ⟨slots, hslots, rfl⟩, hundeclared⟩

end Sys2Proof.Claims

/-! PROOFS. Further statements on the encoding: the inverse pair (R69), the illegal words (R68), the match and mask rows
(R72), the number of legal words, and the texts (R57, R71). -/

namespace Sys2Proof

/-! ### The occupied words, by opcode number (R66, R68) -/

section Occupied

variable {w : SlotWord}

/-- The fields that the row of the word's opcode number requires to be 0 are 0 (R66). -/
def requiredZero (w : SlotWord) : Bool :=
  (opcF w == 0 || !dclF w) &&
  (decide (opcF w ∈ [0, 1, 2, 4]) || symF w == 0) &&
  (decide (opcF w ∈ [0, 3, 6, 7, 8]) || valF w == 0)

theorem requiredZero_iff : requiredZero w = true ↔
    (opcF w = 0 ∨ dclF w = false) ∧ (opcF w ∈ [0, 1, 2, 4] ∨ symF w = 0) ∧
      (opcF w ∈ [0, 3, 6, 7, 8] ∨ valF w = 0) := by
  simp only [requiredZero, Bool.and_eq_true, Bool.or_eq_true, beq_iff_eq, Bool.not_eq_true', decide_eq_true_eq,
    and_assoc]

theorem requiredZero_encode (i : Instr) : requiredZero (encode i) = true := by
  cases i <;> simp [encode, requiredZero_iff]

/-- Rows of R66 whose only free field is SYM. -/
theorem onlySym_eq (h : opcF w ∈ [1, 2, 4]) (i : Instr) :
    onlySym w i = if requiredZero w then .ok (.instr i) else .error .nonzeroField := by
  have hz : requiredZero w = true ↔ dclF w = false ∧ valF w = 0 := by
    simp only [List.mem_cons, List.not_mem_nil, or_false] at h
    rcases h with h | h | h <;> simp [requiredZero_iff, h]
  simp only [onlySym, hz]

/-- Rows of R66 whose only free field is VAL. -/
theorem onlyVal_eq (h : opcF w ∈ [3, 6, 7, 8]) (i : Instr) :
    onlyVal w i = if requiredZero w then .ok (.instr i) else .error .nonzeroField := by
  have hz : requiredZero w = true ↔ dclF w = false ∧ symF w = 0 := by
    simp only [List.mem_cons, List.not_mem_nil, or_false] at h
    rcases h with h | h | h | h <;> simp [requiredZero_iff, h]
  simp only [onlyVal, hz]

/-- Rows of R66 with no free field. -/
theorem noField_eq (h : opcF w ∈ [5, 9, 10]) (i : Instr) :
    noField w i = if requiredZero w then .ok (.instr i) else .error .nonzeroField := by
  have hz : requiredZero w = true ↔ dclF w = false ∧ symF w = 0 ∧ valF w = 0 := by
    simp only [List.mem_cons, List.not_mem_nil, or_false] at h
    rcases h with h | h | h <;> simp [requiredZero_iff, h]
  simp only [noField, hz]

/-- Everything the decoder can do with an occupied word: the opcode number is reserved, or it is that of an instruction
and the required zeros decide (R66, R68). -/
theorem decodeSlot_of_occupied (ho : occF w = true) :
    (11 ≤ (opcF w).toNat ∧ decodeSlot w = .error .reservedOpcode) ∨
    ∃ i : Instr, i.opcode = opcF w ∧
      decodeSlot w = if requiredZero w then .ok (.instr i) else .error .nonzeroField := by
  have opc : ∀ n : BitVec 4, (opcF w).toNat = n.toNat → opcF w = n := fun n h => BitVec.eq_of_toNat_eq h
  rw [decodeSlot, if_neg (by simp [ho])]
  split
  · next h =>
    have hopc : opcF w = 0 := opc 0 h
    exact .inr ⟨.dec (symF w) (dclF w) (valF w), hopc.symm, by rw [if_pos (by simp [requiredZero_iff, hopc])]⟩
  · next h => exact .inr ⟨.lda (symF w), (opc 1 h).symm, onlySym_eq (by simp [opc 1 h]) _⟩
  · next h => exact .inr ⟨.ldb (symF w), (opc 2 h).symm, onlySym_eq (by simp [opc 2 h]) _⟩
  · next h => exact .inr ⟨.ldi (valF w), (opc 3 h).symm, onlyVal_eq (by simp [opc 3 h]) _⟩
  · next h => exact .inr ⟨.st (symF w), (opc 4 h).symm, onlySym_eq (by simp [opc 4 h]) _⟩
  · next h => exact .inr ⟨.xch, (opc 5 h).symm, noField_eq (by simp [opc 5 h]) _⟩
  · next h => exact .inr ⟨.jmp (valF w), (opc 6 h).symm, onlyVal_eq (by simp [opc 6 h]) _⟩
  · next h => exact .inr ⟨.jzs (valF w), (opc 7 h).symm, onlyVal_eq (by simp [opc 7 h]) _⟩
  · next h => exact .inr ⟨.jvs (valF w), (opc 8 h).symm, onlyVal_eq (by simp [opc 8 h]) _⟩
  · next h => exact .inr ⟨.add, (opc 9 h).symm, noField_eq (by simp [opc 9 h]) _⟩
  · next h => exact .inr ⟨.hlt, (opc 10 h).symm, noField_eq (by simp [opc 10 h]) _⟩
  · next h0 h1 h2 h3 h4 h5 h6 h7 h8 h9 h10 =>
    refine .inl ⟨?_, rfl⟩
    by_contra hlt
    interval_cases hn : (opcF w).toNat <;> contradiction

end Occupied

theorem toNat_opcode_le (i : Instr) : i.opcode.toNat ≤ 10 := by
  cases i <;> exact Nat.le_of_ble_eq_true rfl

/-- The instruction words, by their fields (R66). -/
theorem decodeSlot_instr_iff {w : SlotWord} {n : BitVec 4} (hn : n.toNat ≤ 10) :
    (∃ j : Instr, decodeSlot w = .ok (.instr j) ∧ j.opcode = n) ↔
      occF w = true ∧ opcF w = n ∧ requiredZero w = true := by
  constructor
  · rintro ⟨j, hj, rfl⟩
    obtain rfl : w = encode j := decodeSlot_eq_ok_iff.mp hj
    exact ⟨occF_encode j, opcF_encode j, requiredZero_encode j⟩
  · rintro ⟨ho, rfl, hz⟩
    rcases decodeSlot_of_occupied ho with ⟨hreserved, -⟩ | ⟨i, hi, hdec⟩
    · omega
    · exact ⟨i, by rw [hdec, if_pos hz], hi⟩

/-! ### The kinds of illegal word (R68) -/

theorem decodeSlot_of_unoccupied {w : SlotWord} (ho : occF w = false) :
    decodeSlot w = if w = 0 then .ok .empty else .error .unoccupiedNotZero := by
  rw [decodeSlot, if_pos ho]

/-- The illegal words, kind by kind (R68). -/
theorem decodeSlot_error_iff (w : SlotWord) :
    (decodeSlot w = .error .unoccupiedNotZero ↔ occF w = false ∧ w ≠ 0) ∧
    (decodeSlot w = .error .reservedOpcode ↔ occF w = true ∧ 11 ≤ (opcF w).toNat) ∧
    (decodeSlot w = .error .nonzeroField ↔ occF w = true ∧ (opcF w).toNat ≤ 10 ∧ requiredZero w = false) := by
  cases ho : occF w with
  | false =>
    rw [decodeSlot_of_unoccupied ho]
    by_cases hw : w = 0
    · simp [hw]
    · rw [if_neg hw]
      simpa using hw
  | true =>
    rcases decodeSlot_of_occupied ho with ⟨hreserved, hdec⟩ | ⟨i, hi, hdec⟩
    · have hle : ¬ (opcF w).toNat ≤ 10 := by omega
      simp [hdec, hreserved, hle]
    · have hle : (opcF w).toNat ≤ 10 := hi ▸ toNat_opcode_le i
      have hge : ¬ 11 ≤ (opcF w).toNat := by omega
      cases hz : requiredZero w <;> simp [hdec, hz, hle, hge]

/-- A field that must be 0 is not: the rows by their numbers, DEC's with no such field (R66). -/
theorem requiredZero_eq_false_iff {w : SlotWord} :
    requiredZero w = false ↔ (opcF w).toNat ≠ 0 ∧
      (dclF w = true ∨ (symF w ≠ 0 ∧ (opcF w).toNat ∉ [1, 2, 4]) ∨ (valF w ≠ 0 ∧ (opcF w).toNat ∉ [3, 6, 7, 8])) := by
  have opc : ∀ n : BitVec 4, opcF w = n ↔ (opcF w).toNat = n.toNat := fun n => BitVec.toNat_inj.symm
  rw [← Bool.not_eq_true, requiredZero_iff]
  simp only [List.mem_cons, List.not_mem_nil, or_false, opc, BitVec.ofNat_eq_ofNat, BitVec.toNat_ofNat, Nat.reducePow,
    Nat.reduceMod]
  by_cases h0 : (opcF w).toNat = 0
  · simp [h0]
  · cases dclF w
    · simp only [h0, not_and_or, not_or, false_or, or_true, true_and, and_comm, not_false_eq_true, ne_eq,
        Bool.false_eq_true]
    · simp [h0]

/-! ### The match and mask rows (R72) -/

/-- The mask of the row with opcode number `n`: OCC and OPC, and the fields that must be 0 in full. -/
def maskOf (n : BitVec 4) : SlotWord :=
  packSlot true 15 (n != 0) (if n ∈ [0, 1, 2, 4] then 0 else BitVec.allOnes 8)
    (if n ∈ [0, 3, 6, 7, 8] then 0 else BitVec.allOnes 30)

theorem rowMask_eq (i : Instr) : i.rowMask = maskOf i.opcode := by
  apply BitVec.eq_of_toNat_eq
  rw [maskOf, toNat_packSlot]
  cases i <;> simp [Instr.rowMask, Instr.opcode]

theorem rowMatch_eq (i : Instr) : i.rowMatch = packSlot true i.opcode false 0 0 := by
  apply BitVec.eq_of_toNat_eq
  rw [toNat_packSlot]
  cases i <;> simp [Instr.rowMatch, Instr.opcode]

/-! A mask acts field by field. -/

@[simp] theorem occF_and (w w' : SlotWord) : occF (w &&& w') = (occF w && occF w') := BitVec.getLsbD_and
@[simp] theorem opcF_and (w w' : SlotWord) : opcF (w &&& w') = opcF w &&& opcF w' := BitVec.extractLsb'_and
@[simp] theorem dclF_and (w w' : SlotWord) : dclF (w &&& w') = (dclF w && dclF w') := BitVec.getLsbD_and
@[simp] theorem symF_and (w w' : SlotWord) : symF (w &&& w') = symF w &&& symF w' := BitVec.extractLsb'_and
@[simp] theorem valF_and (w w' : SlotWord) : valF (w &&& w') = valF w &&& valF w' := BitVec.extractLsb'_and

theorem eq_iff_fields {w w' : SlotWord} : w = w' ↔
    occF w = occF w' ∧ opcF w = opcF w' ∧ dclF w = dclF w' ∧ symF w = symF w' ∧ valF w = valF w' := by
  constructor
  · rintro rfl
    exact ⟨rfl, rfl, rfl, rfl, rfl⟩
  · rintro ⟨ho, hn, hd, hc, hx⟩
    exact eq_of_fields ho hn hd hc hx

/-- A field under a mask that covers it in full or not at all. -/
theorem and_mask_eq_zero_iff {k : Nat} {x : BitVec k} {p : Prop} [Decidable p] :
    x &&& (if p then 0 else BitVec.allOnes k) = 0 ↔ p ∨ x = 0 := by
  by_cases hp : p <;> simp [hp]

/-- A word agrees with a row exactly when it is occupied, has the row's opcode number and its required zeros (R72). -/
theorem matchesRow_iff {w : SlotWord} {i : Instr} :
    matchesRow w i = true ↔ occF w = true ∧ opcF w = i.opcode ∧ requiredZero w = true := by
  have hopc : opcF w &&& 15 = opcF w := BitVec.and_allOnes
  rw [matchesRow, beq_iff_eq, rowMask_eq, rowMatch_eq, maskOf, eq_iff_fields]
  simp only [occF_and, opcF_and, dclF_and, symF_and, valF_and, occF_packSlot, opcF_packSlot, dclF_packSlot,
    symF_packSlot, valF_packSlot, and_mask_eq_zero_iff, Bool.and_true, hopc]
  refine and_congr_right fun _ => and_congr_right fun hn => ?_
  rw [requiredZero_iff, hn]
  refine and_congr_left fun _ => ?_
  cases dclF w <;> simp

theorem legalWord_iff {w : SlotWord} : legalWord w = true ↔ ∃ slot, decodeSlot w = .ok slot := by
  unfold legalWord
  cases decodeSlot w <;> simp

/-! ### The number of legal words (R69) -/

/-- The word of a slot, as a legal word. -/
def legalWordOf (slot : Slot) : { w : SlotWord // legalWord w = true } :=
  ⟨encodeSlot slot, legalWord_iff.mpr ⟨slot, decodeSlot_encodeSlot slot⟩⟩

/-- The legal words are the words of the slots, one each (R69). -/
theorem legalWordOf_bijective : Function.Bijective legalWordOf := by
  constructor
  · intro slot slot' h
    have hdec : decodeSlot (encodeSlot slot') = .ok slot := decodeSlot_eq_ok_iff.mpr (congrArg Subtype.val h).symm
    rw [decodeSlot_encodeSlot] at hdec
    injection hdec with hslot
    exact hslot.symm
  · rintro ⟨w, hw⟩
    obtain ⟨slot, hslot⟩ := legalWord_iff.mp hw
    exact ⟨slot, Subtype.ext (encodeSlot_of_decodeSlot hslot)⟩

/-- The instructions by the shape of their rows: DEC, the three with a name, the four with an integer, the three without
operand (R66). -/
abbrev InstrShape : Type := (SymCode × Bool × Word) ⊕ (Fin 3 × SymCode) ⊕ (Fin 4 × Word) ⊕ Fin 3

/-- The shape of an instruction. -/
def Instr.shape : Instr → InstrShape
  | .dec c d x => .inl (c, d, x)
  | .lda c => .inr (.inl (0, c))
  | .ldb c => .inr (.inl (1, c))
  | .st c => .inr (.inl (2, c))
  | .ldi x => .inr (.inr (.inl (0, x)))
  | .jmp x => .inr (.inr (.inl (1, x)))
  | .jzs x => .inr (.inr (.inl (2, x)))
  | .jvs x => .inr (.inr (.inl (3, x)))
  | .xch => .inr (.inr (.inr 0))
  | .add => .inr (.inr (.inr 1))
  | .hlt => .inr (.inr (.inr 2))

/-- The instruction of a shape. -/
def InstrShape.instr : InstrShape → Instr
  | .inl (c, d, x) => .dec c d x
  | .inr (.inl (0, c)) => .lda c
  | .inr (.inl (1, c)) => .ldb c
  | .inr (.inl (2, c)) => .st c
  | .inr (.inr (.inl (0, x))) => .ldi x
  | .inr (.inr (.inl (1, x))) => .jmp x
  | .inr (.inr (.inl (2, x))) => .jzs x
  | .inr (.inr (.inl (3, x))) => .jvs x
  | .inr (.inr (.inr 0)) => .xch
  | .inr (.inr (.inr 1)) => .add
  | .inr (.inr (.inr 2)) => .hlt

/-- A shape says which instruction it is of. -/
def instrEquivShape : Instr ≃ InstrShape where
  toFun := Instr.shape
  invFun := InstrShape.instr
  left_inv i := by cases i <;> rfl
  right_inv k := by
    rcases k with _ | ⟨n, _⟩ | ⟨n, _⟩ | n
    · rfl
    all_goals fin_cases n <;> rfl

/-- A slot is empty or one instruction. -/
def slotEquivOption : Slot ≃ Option Instr where
  toFun
    | .empty => none
    | .instr i => some i
  invFun
    | none => .empty
    | some i => .instr i
  left_inv slot := by cases slot <;> rfl
  right_inv o := by cases o <;> rfl

theorem card_bitVec (n : Nat) : Nat.card (BitVec n) = 2 ^ n := by
  rw [Nat.card_congr BitVec.equivFin.toEquiv, Nat.card_fin]

theorem card_instr : Nat.card Instr = 2 ^ 39 + 3 * 2 ^ 8 + 4 * 2 ^ 30 + 3 := by
  have hbool : Nat.card Bool = 2 := Nat.card_eq_two_iff.mpr ⟨false, true, by decide, by ext b; cases b <;> simp⟩
  rw [Nat.card_congr instrEquivShape, Nat.card_sum, Nat.card_sum, Nat.card_sum]
  simp only [Nat.card_prod, card_bitVec, Nat.card_fin, hbool]
  norm_num

theorem card_slot : Nat.card Slot = Nat.card Instr + 1 := by
  have hfin : Finite Instr := Nat.finite_of_card_ne_zero (by rw [card_instr]; decide)
  rw [Nat.card_congr slotEquivOption, Finite.card_option]

end Sys2Proof

namespace Sys2Proof.Claims

open Sys2Proof.Machine

/-- A number of a row of R66 decodes to the row's instruction. -/
theorem decodeTableWord_of_slotNumber {n w : Nat} {i : Instr} (h : slotNumber (.instr i) = w) :
    decodeTableWord n w = some i := by
  have hword : BitVec.ofNat 44 w = encodeSlot (.instr i) := by
    rw [← h, ← toNat_encodeSlot, BitVec.ofNat_toNat, BitVec.setWidth_eq]
  rw [decodeTableWord, hword, decodeSlot_encodeSlot]

/-- Settles O1. -/
theorem decodeEncodeAgree : Obligations.DecodeEncodeAgree :=
  ⟨decodeSlot_encodeSlot, fun _ _ => encodeSlot_of_decodeSlot⟩

/-- Settles O7: each instruction's own statement reads its line, and a decimal integer reads back as its value. No line
depends on a state, so the reset state stands for any. -/
theorem textAndLoaderAgree : Obligations.TextAndLoaderAgree := by
  intro i hi
  have hint : ∀ x : Word, intToken (decimal x.toInt) = some x.toInt := fun x => intToken_decimal (natAbs_toInt_lt x)
  cases i with
  | dec c d x =>
    simp only [Instr.hasText, Bool.and_eq_true, Bool.not_eq_true', beq_iff_eq] at hi
    obtain ⟨⟨hc, rfl⟩, rfl⟩ := hi
    obtain ⟨-, hline, -⟩ := decDeclaresItsName c 0 State.reset
    exact hline hc
  | lda c =>
    obtain ⟨-, hline, -⟩ := ldaLoadsA c State.reset
    exact hline hi
  | ldb c =>
    obtain ⟨-, hline, -⟩ := ldbLoadsB c State.reset
    exact hline hi
  | st c =>
    obtain ⟨-, hline, -⟩ := stStoresA c State.reset
    exact hline hi
  | ldi x =>
    obtain ⟨-, hline, -⟩ := ldiLoadsTheImmediate x State.reset
    exact hline _ (hint x)
  | jmp x =>
    obtain ⟨-, hline, -⟩ := jmpJumps x State.reset
    exact hline _ (hint x)
  | jzs x =>
    obtain ⟨-, hline, -⟩ := jzsJumpsOnZero x State.reset
    exact hline _ (hint x)
  | jvs x =>
    obtain ⟨-, hline, -⟩ := jvsJumpsOnOverflow x State.reset
    exact hline _ (hint x)
  | xch | add | hlt => rfl

/-- Settles O3: the decoder's error by its kind, the required zeros written out. -/
theorem illegalWordsByKind : Obligations.IllegalWordsByKind := by
  intro w
  obtain ⟨hunoccupied, hreserved, hnonzero⟩ := decodeSlot_error_iff w
  refine ⟨hunoccupied, hreserved, ?_⟩
  rw [hnonzero, requiredZero_eq_false_iff]

/-- Settles O4: agreeing with a row and decoding to one of its instructions are the same facts about the fields. -/
theorem matchAndMaskRows : Obligations.MatchAndMaskRows := by
  have hrow : ∀ (w : SlotWord) (i : Instr),
      matchesRow w i = true ↔ ∃ j : Instr, decodeSlot w = .ok (.instr j) ∧ j.opcode = i.opcode := fun w i =>
    matchesRow_iff.trans (decodeSlot_instr_iff (toNat_opcode_le i)).symm
  refine ⟨hrow, fun w i j hi hj => ?_, fun w hnone => ?_⟩
  · obtain ⟨-, hopc, -⟩ := matchesRow_iff.mp hi
    obtain ⟨-, hopc', -⟩ := matchesRow_iff.mp hj
    exact hopc.symm.trans hopc'
  · rw [legalWord_iff]
    constructor
    · rintro ⟨_ | i, hdec⟩
      · exact decodeSlot_eq_ok_iff.mp hdec
      · have hmatch : matchesRow w i = true := (hrow w i).mpr ⟨i, hdec, rfl⟩
        rw [hnone i] at hmatch
        cases hmatch
    · rintro rfl
      exact ⟨.empty, decodeSlot_encodeSlot .empty⟩

/-- Settles O5: the legal words are as many as the slots, and the slots are counted by the shapes of their rows. -/
theorem legalWordCount : Obligations.LegalWordCount := by
  calc Nat.card { w : SlotWord // legalWord w = true }
      = Nat.card Slot := (Nat.card_eq_of_bijective legalWordOf legalWordOf_bijective).symm
    _ = 1 + 2 ^ 39 + 3 * 2 ^ 8 + 4 * 2 ^ 30 + 3 := by
      rw [card_slot, card_instr]
      omega

/-- Settles O6: each word has the number of its instruction's row; opcode number 11 is reserved. -/
theorem sampleWordsDecode : Obligations.SampleWordsDecode :=
  ⟨decodeTableWord_of_slotNumber rfl, decodeTableWord_of_slotNumber rfl, decodeTableWord_of_slotNumber (by decide),
    decodeTableWord_of_slotNumber (by decide), decodeTableWord_of_slotNumber rfl, decodeTableWord_of_slotNumber rfl,
    rfl⟩

/-- Settles O57: each row of the table of texts is a row of `instrText`. -/
theorem slotTexts : Obligations.SlotTexts :=
  ⟨rfl, fun _ _ => ⟨rfl, rfl, rfl, rfl, rfl, rfl, rfl, rfl, rfl⟩, rfl, rfl, rfl⟩

end Sys2Proof.Claims

/-! PROOFS. Further statements on the step: the placed instruction (R80), what a step does not read (R82, R150), the
`diag_unbound` output (R155), and the frame of each instruction (R25). -/

namespace Sys2Proof.Machine

open Sys2Proof.Claims

/-! ### Placing an instruction at the pc (log entries 3 and 19) -/

theorem State.withFetchWord_of_pcInRange {s : State} (hr : s.pcInRange) (n w : Nat) :
    s.withFetchWord n w = { s with mem := s.mem.write s.pcSlot (BitVec.ofNat 44 w) } := by
  simp only [State.withFetchWord, State.storeAtPc, State.slotAddr_of_inRange hr]

/-- The placed instruction stands at the pc. -/
theorem State.withFetchWord_slotAt {s : State} (hr : s.pcInRange) (n : Nat) (i : Instr) :
    (s.withFetchWord n (encode i).toNat).slotAt s.pcSlot = .ok (.instr i) := by
  rw [State.withFetchWord_of_pcInRange hr, State.slotAt, Memory.read_write_same, BitVec.ofNat_toNat, BitVec.setWidth_eq]
  exact decodeSlot_encodeSlot (.instr i)

/-! ### The outputs of the step before are not read (R150) -/

/-- Every outcome of an instruction sets the outputs anew or is a fault. -/
theorem exec_with_other_report (i : Instr) (s : State) (r : Option StepReport) :
    exec i { s with report := r } = exec i s := by
  cases i with
  | dec c d x =>
    simp only [exec, execDec]
    cases d with
    | true => rfl
    | false => cases slotAddr s.pc <;> rfl
  | lda c | ldb c | st c =>
    simp only [exec, execLda, execLdb, execSt, State.cell]
    cases s.sym.lookup c <;> rfl
  | ldi _ | xch | jmp _ | add | hlt => rfl
  | jzs d =>
    simp only [exec, execJzs]
    split <;> rfl
  | jvs d =>
    simp only [exec, execJvs]
    split <;> rfl

theorem step_with_other_report (s : State) (r : Option StepReport) : step { s with report := r } = step s := by
  have hfetch : State.fetch { s with report := r } = s.fetch := rfl
  rw [step, hfetch, step]
  cases s.fetch with
  | fault f => rfl
  | empty => rfl
  | instr i => exact exec_with_other_report i s r

/-! ### The `diag_unbound` output (R155) -/

/-- The instruction reads or writes through a name that is not bound in `s`. -/
def unboundAccess (i : Instr) (s : State) : Prop :=
  ∃ c, s.sym.lookup c = none ∧ (i = .lda c ∨ i = .ldb c ∨ i = .st c)

theorem not_unboundAccess_of_bound {i : Instr} {s : State} {c : SymCode} {p : Addr}
    (hi : i = .lda c ∨ i = .ldb c ∨ i = .st c) (hp : s.sym.lookup c = some p) : ¬ unboundAccess i s := by
  rintro ⟨k, hk, hik⟩
  have hck : k = c := by rcases hi with rfl | rfl | rfl <;> simpa [eq_comm] using hik
  rw [hck, hp] at hk
  cases hk

/-- The output after an instruction. -/
theorem exec_diag {i : Instr} {s t : State} (h : exec i s = .next t) :
    ∃ r, t.report = some r ∧ (r.diagUnbound = true ↔ unboundAccess i s) := by
  have quiet : ∀ {r : StepReport}, r.diagUnbound = false → ¬ unboundAccess i s →
      (r.diagUnbound = true ↔ unboundAccess i s) := fun hr hi => iff_of_false (by simp [hr]) hi
  rcases exec_next_cases h with ⟨c, x, rfl, rfl⟩ | ⟨c, x, rfl, -, rfl⟩ | ⟨c, p, rfl, hp, rfl⟩ | ⟨c, p, rfl, hp, rfl⟩ |
    ⟨c, p, rfl, hp, rfl⟩ | ⟨c, hi, hc, rfl⟩ | ⟨x, rfl, rfl⟩ | ⟨rfl, rfl⟩ | ⟨d, rfl, rfl⟩ | ⟨d, rfl, rfl⟩ |
    ⟨d, rfl, rfl⟩ | ⟨rfl, rfl⟩ | ⟨rfl, rfl⟩
  · exact ⟨_, rfl, quiet rfl (by simp [unboundAccess])⟩
  · exact ⟨_, rfl, quiet rfl (by simp [unboundAccess])⟩
  · exact ⟨_, rfl, quiet rfl (not_unboundAccess_of_bound (.inl rfl) hp)⟩
  · exact ⟨_, rfl, quiet rfl (not_unboundAccess_of_bound (.inr (.inl rfl)) hp)⟩
  · exact ⟨_, rfl, quiet rfl (not_unboundAccess_of_bound (.inr (.inr rfl)) hp)⟩
  · exact ⟨_, rfl, iff_of_true rfl ⟨c, hc, hi⟩⟩
  -- LDI, XCH, the jumps, ADD and HLT have no name
  all_goals exact ⟨_, rfl, quiet rfl (by simp [unboundAccess])⟩

/-! ### The frame of the accumulators (R25) -/

/-- The instructions that write A, and those that write B. -/
theorem exec_accumulators {i : Instr} {s t : State} (h : exec i s = .next t) :
    (t.a = s.a ∨ (∃ c, i = .lda c) ∨ (∃ x, i = .ldi x) ∨ i = .xch ∨ i = .add) ∧
    (t.b = s.b ∨ (∃ c, i = .ldb c) ∨ i = .xch) := by
  rcases exec_next_cases h with ⟨_, _, -, rfl⟩ | ⟨_, _, -, -, rfl⟩ | ⟨c, _, rfl, -, rfl⟩ | ⟨c, _, rfl, -, rfl⟩ |
    ⟨_, _, -, -, rfl⟩ | ⟨_, -, -, rfl⟩ | ⟨x, rfl, rfl⟩ | ⟨rfl, -⟩ | ⟨_, -, rfl⟩ | ⟨_, -, rfl⟩ | ⟨_, -, rfl⟩ |
    ⟨rfl, rfl⟩ | ⟨-, rfl⟩
  · exact ⟨.inl rfl, .inl rfl⟩
  · exact ⟨.inl rfl, .inl rfl⟩
  · exact ⟨.inr (.inl ⟨c, rfl⟩), .inl rfl⟩
  · exact ⟨.inl rfl, .inr (.inl ⟨c, rfl⟩)⟩
  · exact ⟨.inl rfl, .inl rfl⟩
  · exact ⟨.inl rfl, .inl rfl⟩
  · exact ⟨.inr (.inr (.inl ⟨x, rfl⟩)), .inl rfl⟩
  · exact ⟨.inr (.inr (.inr (.inl rfl))), .inr (.inr rfl)⟩
  · exact ⟨.inl rfl, .inl rfl⟩
  · cases s.z <;> exact ⟨.inl rfl, .inl rfl⟩
  · cases s.v <;> exact ⟨.inl rfl, .inl rfl⟩
  · exact ⟨.inr (.inr (.inr (.inr rfl))), .inl rfl⟩
  · exact ⟨.inl rfl, .inl rfl⟩

theorem exec_keeps_a {i : Instr} {s t : State} (hlda : ∀ c, i ≠ .lda c) (hldi : ∀ x, i ≠ .ldi x) (hxch : i ≠ .xch)
    (hadd : i ≠ .add) (h : exec i s = .next t) : t.a = s.a := by
  simpa [hlda, hldi, hxch, hadd] using (exec_accumulators h).1

theorem exec_keeps_b {i : Instr} {s t : State} (hldb : ∀ c, i ≠ .ldb c) (hxch : i ≠ .xch) (h : exec i s = .next t) :
    t.b = s.b := by
  simpa [hldb, hxch] using (exec_accumulators h).2

/-! ### The frame of the tables (R25) -/

/-- Only a first DEC binds a name. -/
theorem exec_keeps_sym {i : Instr} {s t : State} (hdec : ∀ c x, i ≠ .dec c false x) (h : exec i s = .next t) :
    t.sym = s.sym := by
  rcases exec_tables h with ⟨hsym, -⟩ | ⟨c, x, hi, -, -⟩ | ⟨_, _, -, -, hsym, -⟩
  · exact hsym
  · exact absurd hi (hdec c x)
  · exact hsym

/-- What a bound ST leaves of memory: a payload write at the bound slot. -/
theorem exec_st_mem {s t : State} {c : SymCode} {p : Addr} (hp : s.sym.lookup c = some p)
    (h : exec (.st c) s = .next t) : t.mem = (s.memWrite p s.a).mem := by
  rw [exec_st_bound hp] at h
  cases h
  rfl

/-- What a first DEC leaves of the state. -/
theorem exec_dec_next {s t : State} {c : SymCode} {x : Word} (h : exec (.dec c false x) s = .next t) :
    t = s.firstDec c := by
  rcases execDec_next (x := x) h with ⟨hd, -⟩ | ⟨-, -, ht⟩
  · cases hd
  · exact ht

end Sys2Proof.Machine

namespace Sys2Proof.Claims

open Sys2Proof.Machine

/-- Settles O8. -/
theorem stepRunsDecodedInstruction : Obligations.StepRunsDecodedInstruction :=
  fun _ _ => step_of_instr

/-- Settles O9: placing leaves the pc, so the step finds the placed instruction there. -/
theorem placedInstructionRuns : Obligations.PlacedInstructionRuns := by
  intro s i n hr
  have hslot := State.withFetchWord_slotAt hr n i
  rw [State.withFetchWord_of_pcInRange hr] at hslot ⊢
  exact ⟨step_of_instr hr hslot, fun q hq => Memory.read_write_other s.mem hq _, rfl⟩

/-- Settles O11: the second step does not execute either, so it changes nothing for the same reason as the first. -/
theorem stopsAndFaultsChangeNothing : Obligations.StopsAndFaultsChangeNothing := by
  intro s h
  have harch := stateAfter_arch_of_not_executed h
  have hreport := reportOf_step_stateAfter_of_not_executed h
  have hagain : executed (step (stateAfter s (step s))) = false := (executed_congr hreport).trans h
  exact ⟨harch, hreport, (stateAfter_arch_of_not_executed hagain).trans harch⟩

/-- Settles O16. -/
theorem reportIsNotRead : Obligations.ReportIsNotRead := step_with_other_report

/-- Settles O17: no fault and no empty slot shows the output; an instruction shows it for an unbound access. -/
theorem diagUnboundOutput : Obligations.DiagUnboundOutput := by
  intro s r hr
  by_cases hpc : s.pcInRange
  · cases hslot : s.slotAt s.pcSlot with
    | error e =>
      rw [step_of_illegal hpc hslot] at hr
      cases hr
      simp
    | ok slot =>
      cases slot with
      | empty =>
        rw [step_of_empty hpc hslot] at hr
        cases hr
        simp
      | instr i =>
        obtain ⟨t, ht⟩ := exec_total hpc i
        obtain ⟨r', hr', hdiag⟩ := exec_diag ht
        rw [step_of_instr hpc hslot, ht, reportOf, hr'] at hr
        obtain rfl : r' = r := Option.some_inj.mp hr
        rw [and_iff_right hpc]
        simpa only [unboundAccess, Except.ok.injEq, Slot.instr.injEq] using hdiag
  · rw [step_of_not_pcInRange hpc] at hr
    cases hr
    simp [hpc]

/-- Settles O20: one frame lemma per register, and the two writes of the tables. -/
theorem writeFrames : Obligations.WriteFrames := by
  intro i s t h
  refine ⟨fun hlda hldi hxch hadd => exec_keeps_a hlda hldi hxch hadd h, fun hldb hxch => exec_keeps_b hldb hxch h,
    fun hadd => exec_keeps_flags hadd h, fun hdec => exec_keeps_sym hdec h, ?_, ?_, ?_, ?_, ?_, ?_⟩
  · rintro c x rfl k hk
    rw [exec_dec_next h, s.firstDec_lookup, if_neg hk]
  · intro hdec hst
    rcases exec_tables h with ⟨-, hmem⟩ | ⟨c, x, hi, -, -⟩ | ⟨c, _, hi, -, -, -⟩
    · exact hmem
    · exact absurd hi (hdec c x)
    · exact absurd hi (hst c)
  · rintro c x rfl q hq
    rw [exec_dec_next h, s.firstDec_read_other c hq]
  · rintro c rfl hc
    rw [exec_unbound (.inr (.inr rfl)) hc] at h
    cases h
    rfl
  · rintro c p rfl hp q hq
    rw [exec_st_mem hp h]
    exact Memory.read_write_other s.mem hq _
  · rintro rfl
    rw [exec_hlt] at h
    cases h
    rfl

end Sys2Proof.Claims

/-! PROOFS. Further statements on the state: the invariants (R21, R22) and the canonical form of the two tables (log
entries 1 and 2). -/

namespace Sys2Proof.Machine

/-! ### The canonical form (log entries 1 and 2) -/

theorem State.canonical_iff {s : State} : s.canonical = true ↔ s.mem.wf = true ∧ s.sym.wf = true := by
  rw [State.canonical, Bool.and_eq_true]

/-- The tables are written with the operations of the tables only. -/
theorem exec_keeps_canonical {i : Instr} {s t : State} (hc : s.canonical = true) (h : exec i s = .next t) :
    t.canonical = true := by
  obtain ⟨hwm, hws⟩ := State.canonical_iff.mp hc
  rw [State.canonical_iff]
  rcases exec_tables h with ⟨hsym, hmem⟩ | ⟨c, x, -, hsym, hmem⟩ | ⟨c, p, -, -, hsym, hmem⟩ <;> rw [hsym, hmem]
  · exact ⟨hwm, hws⟩
  · exact ⟨Memory.wf_write hwm _ _, SymbolTable.wf_bind hws _ _⟩
  · exact ⟨Memory.wf_write hwm _ _, hws⟩

theorem step_keeps_canonical {s t : State} (hc : s.canonical = true) (h : step s = .next t) : t.canonical = true := by
  obtain ⟨-, ⟨-, rfl⟩ | ⟨i, -, he⟩⟩ := step_next_cases h
  · exact hc
  · exact exec_keeps_canonical hc he

theorem State.load_canonical {s t : State} {lines : List Line} (h : s.load lines = .next t) : t.canonical = true := by
  obtain ⟨slots, -, rfl⟩ := State.load_next h
  exact State.canonical_iff.mpr ⟨Memory.wf_fill Memory.wf_nil 0 slots, SymbolTable.wf_nil⟩

/-! ### Tables in canonical form are equal when they answer alike -/

section Rising

variable {α : Type}

/-- A key below the first one allowed is not listed. -/
theorem Store.find_of_rising {lo k : Nat} {l : List (Nat × α)} (hl : Store.rising lo l = true) (hk : k < lo) :
    Store.find k l = none := by
  induction l generalizing lo with
  | nil => rfl
  | cons e rest ih =>
    obtain ⟨j, y⟩ := e
    simp only [Store.rising, Bool.and_eq_true, decide_eq_true_eq] at hl
    obtain ⟨hlo, hrest⟩ := hl
    rw [Store.find_cons, if_neg (by omega)]
    exact ih hrest (by omega)

theorem Store.mem_of_find {k : Nat} {x : α} {l : List (Nat × α)} (h : Store.find k l = some x) : (k, x) ∈ l := by
  induction l with
  | nil => cases h
  | cons e rest ih =>
    obtain ⟨j, y⟩ := e
    rw [Store.find_cons] at h
    split at h
    · next hj =>
      injection h with hx
      rw [hj, hx]
      exact List.mem_cons_self
    · exact List.mem_cons_of_mem _ (ih h)

/-- The first entry of a table with rising keys is the answer at the least listed key. -/
theorem Store.head_le_of_find {lo j k : Nat} {x y : α} {rest : List (Nat × α)}
    (hl : Store.rising lo ((j, y) :: rest) = true) (h : Store.find k ((j, y) :: rest) = some x) : j ≤ k := by
  simp only [Store.rising, Bool.and_eq_true, decide_eq_true_eq] at hl
  obtain ⟨-, hrest⟩ := hl
  by_contra hlt
  rw [Store.find_cons, if_neg (by omega), Store.find_of_rising hrest (by omega)] at h
  cases h

/-- Tables with rising keys that give the same answers are equal. -/
theorem Store.eq_of_find {lo lo' : Nat} {l l' : List (Nat × α)} (hl : Store.rising lo l = true)
    (hl' : Store.rising lo' l' = true) (h : ∀ k, Store.find k l = Store.find k l') : l = l' := by
  induction l generalizing lo lo' l' with
  | nil =>
    cases l' with
    | nil => rfl
    | cons e rest => simpa [Store.find] using h e.1
  | cons e rest ih =>
    obtain ⟨j, y⟩ := e
    have hj : Store.find j l' = some y := by rw [← h j, Store.find_cons, if_pos rfl]
    cases l' with
    | nil => cases hj
    | cons e' rest' =>
      obtain ⟨j', y'⟩ := e'
      have hj' : Store.find j' ((j, y) :: rest) = some y' := by rw [h j', Store.find_cons, if_pos rfl]
      obtain rfl : j = j' := le_antisymm (Store.head_le_of_find hl hj') (Store.head_le_of_find hl' hj)
      obtain rfl : y = y' := by simpa [Store.find_cons] using hj'
      simp only [Store.rising, Bool.and_eq_true, decide_eq_true_eq] at hl hl'
      obtain ⟨-, hrest⟩ := hl
      obtain ⟨-, hrest'⟩ := hl'
      have htail : ∀ k, Store.find k rest = Store.find k rest' := by
        intro k
        by_cases hk : j = k
        · subst hk
          rw [Store.find_of_rising hrest (Nat.lt_succ_self _), Store.find_of_rising hrest' (Nat.lt_succ_self _)]
        · simpa [Store.find_cons, hk] using h k
      rw [ih hrest hrest' htail]

end Rising

theorem Memory.wf_iff {m : Memory} :
    m.wf = true ↔ Store.rising 0 m = true ∧ ∀ e ∈ m, e.1 < 256 ∧ e.2 ≠ Memory.unlisted := by
  simp only [Memory.wf, Bool.and_eq_true, List.all_eq_true, decide_eq_true_eq, bne_iff_ne]
  exact Iff.rfl

/-- In canonical form the reads tell what is listed. -/
theorem Memory.find_eq_some_iff {m : Memory} (hm : m.wf = true) {k : Nat} {w : SlotWord} :
    Store.find k m = some w ↔ k < 256 ∧ w ≠ Memory.unlisted ∧ m.read (BitVec.ofNat 8 k) = w := by
  obtain ⟨-, hall⟩ := Memory.wf_iff.mp hm
  have hread : k < 256 → m.read (BitVec.ofNat 8 k) = (Store.find k m).getD Memory.unlisted := by
    intro hk
    rw [Memory.read, BitVec.toNat_ofNat, Nat.mod_eq_of_lt hk]
  constructor
  · intro h
    obtain ⟨hk, hw⟩ := hall _ (Store.mem_of_find h)
    exact ⟨hk, hw, by rw [hread hk, h, Option.getD_some]⟩
  · rintro ⟨hk, hw, hr⟩
    rw [hread hk] at hr
    cases hf : Store.find k m with
    | none =>
      rw [hf] at hr
      exact absurd hr.symm hw
    | some w' =>
      rw [hf] at hr
      exact congrArg some hr

theorem Memory.eq_of_read {m m' : Memory} (hm : m.wf = true) (hm' : m'.wf = true)
    (h : ∀ p : Addr, m.read p = m'.read p) : m = m' := by
  refine Store.eq_of_find (Memory.wf_iff.mp hm).1 (Memory.wf_iff.mp hm').1 fun k => Option.ext fun w => ?_
  rw [Memory.find_eq_some_iff hm, Memory.find_eq_some_iff hm', h]

/-! ### What a step can do to a slot (R18, R22) -/

theorem State.slotAt_congr {s t : State} (hmem : t.mem = s.mem) (p : Addr) : t.slotAt p = s.slotAt p := by
  rw [State.slotAt, hmem, State.slotAt]

/-- An instruction leaves a slot as it was, or the slot holds a DEC, which is declared after it. The store needs that
bound names name declared slots. -/
theorem exec_slotAt_cases {i : Instr} {s t : State} (hb : s.BindingsDeclared)
    (hi : s.slotAt s.pcSlot = .ok (.instr i)) (h : exec i s = .next t) (p : Addr) :
    t.slotAt p = s.slotAt p ∨
    ∃ c d x y, s.slotAt p = .ok (.instr (.dec c d x)) ∧ t.slotAt p = .ok (.instr (.dec c true y)) := by
  rcases exec_tables h with ⟨-, hmem⟩ | ⟨c, x, rfl, -, -⟩ | ⟨c, q, rfl, hq, -, hmem⟩
  · exact .inl (State.slotAt_congr hmem p)
  · rw [exec_dec_next h]
    by_cases hp : p = s.pcSlot
    · subst hp
      exact .inr ⟨c, false, x, 0, hi, s.firstDec_slotAt_own c hi⟩
    · exact .inl (s.firstDec_slotAt_other c hp)
  · rw [State.slotAt_congr hmem]
    by_cases hp : p = q
    · subst hp
      obtain ⟨x, hx⟩ := hb c p hq
      exact .inr ⟨c, true, x, s.a, hx, State.slotAt_memWrite_same hx s.a⟩
    · exact .inl (s.slotAt_memWrite_other hp s.a)

theorem step_slotAt_cases {s t : State} (hb : s.BindingsDeclared) (h : step s = .next t) (p : Addr) :
    t.slotAt p = s.slotAt p ∨
    ∃ c d x y, s.slotAt p = .ok (.instr (.dec c d x)) ∧ t.slotAt p = .ok (.instr (.dec c true y)) := by
  obtain ⟨-, ⟨-, rfl⟩ | ⟨i, hi, he⟩⟩ := step_next_cases h
  · exact .inl rfl
  · exact exec_slotAt_cases hb hi he p

theorem step_keeps_fixedPart {s t : State} (hb : s.BindingsDeclared) (h : step s = .next t) (p : Addr) :
    (t.slotAt p).map Slot.fixedPart = (s.slotAt p).map Slot.fixedPart := by
  rcases step_slotAt_cases hb h p with hsame | ⟨c, d, x, y, hs, ht⟩
  · rw [hsame]
  · rw [hs, ht]
    rfl

/-! ### The invariants (R21, R22) -/

theorem State.Inv.bindingsDeclared {s : State} (h : s.Inv) : s.BindingsDeclared := h.bound

theorem State.Inv.step {s t : State} (h : s.Inv) (hs : step s = .next t) : t.Inv where
  canonical := step_keeps_canonical h.canonical hs
  legal := Memory.Legal.step (s := s) h.legal h.bindingsDeclared hs
  bound := h.bindingsDeclared.step hs
  pending := by
    intro p c x hp
    rcases step_slotAt_cases h.bindingsDeclared hs p with hsame | ⟨c', d, x', y, -, ht⟩
    · exact h.pending p c x (hsame ▸ hp)
    · rw [ht] at hp
      cases hp

theorem State.load_inv {s t : State} {lines : List Line} (h : s.load lines = .next t) : t.Inv where
  canonical := State.load_canonical h
  legal := State.load_legal h
  bound := State.load_bindingsDeclared h
  pending := fun _ _ _ hp => (State.load_undeclared h hp).2

theorem Reached.inv {s t : State} (h : Reached s t) (hs : s.Inv) : t.Inv :=
  h.of_step_keeps (fun _ _ hi hstep => hi.step hstep) hs

theorem Reached.fixedPart {s t : State} (h : Reached s t) (hs : s.Inv) (p : Addr) :
    (t.slotAt p).map Slot.fixedPart = (s.slotAt p).map Slot.fixedPart := by
  induction h with
  | start => rfl
  | step hr hstep ih => exact (step_keeps_fixedPart (hr.inv hs).bindingsDeclared hstep p).trans ih

theorem word_range (x : Word) : -2 ^ 29 ≤ x.toInt ∧ x.toInt ≤ 2 ^ 29 - 1 := by
  have hlo := x.le_toInt
  have hhi := x.toInt_lt
  omega

end Sys2Proof.Machine

namespace Sys2Proof.Claims

open Sys2Proof.Machine

/-- Settles O21: the legal words and the bindings are kept together, and a slot that changes is a declared DEC. -/
theorem stepKeepsInv : Obligations.StepKeepsInv := fun _ _ => State.Inv.step

/-- Settles O22: the only slots that change are DEC slots, and only in their flag and payload. -/
theorem stepKeepsFixedParts : Obligations.StepKeepsFixedParts :=
  fun _ _ hinv hstep => step_keeps_fixedPart hinv.bindingsDeclared hstep

/-- Settles O24. -/
theorem loadGivesInv : Obligations.LoadGivesInv := fun _ _ _ => State.load_inv

/-- Settles O23: the reset state is the load of zero lines. -/
theorem invAtReset : Obligations.InvAtReset :=
  State.load_inv (s := State.reset) (lines := []) rfl

/-- Settles O25. -/
theorem stepKeepsCanonicalForm : Obligations.StepKeepsCanonicalForm := fun _ _ => step_keeps_canonical

/-- Settles O26: tables with rising keys are told apart by their answers, and the reads give every answer. -/
theorem canonicalMemoryIsUnique : Obligations.CanonicalMemoryIsUnique := fun _ _ => Memory.eq_of_read

/-- Settles O28, from the invariant and the kept parts; the ranges are those of the words. -/
theorem reachableStateInvariants : Obligations.ReachableStateInvariants := by
  intro s s₁ t lines hload hreached
  have hstart : s₁.Inv := State.load_inv hload
  have hinv : t.Inv := hreached.inv hstart
  refine ⟨fun c p hp => ?_, fun c p _ => by omega, word_range t.a, word_range t.b,
    fun p c d x hp => ⟨word_range x, ?_⟩, hreached.fixedPart hstart⟩
  · obtain ⟨x, hx⟩ := hinv.bound c p hp
    exact ⟨true, x, hx⟩
  · rintro rfl
    exact hinv.pending p c x hp

end Sys2Proof.Claims

/-! PROOFS. Further statements on ADD: the adder of R132 and the laws of R133. -/

namespace Sys2Proof.Machine

/-! ### `wrap30` in its three ranges (R130) -/

theorem wrap30_of_inRange {t : Int} (hlo : -536870912 ≤ t) (hhi : t ≤ 536870911) : wrap30 t = (t, false) := by
  rw [wrap30_eq, if_neg (by omega), if_neg (by omega)]

theorem wrap30_of_above {t : Int} (h : 536870911 < t) : wrap30 t = (t - 1073741824, true) := by
  rw [wrap30_eq, if_pos h]

theorem wrap30_of_below {t : Int} (h : t < -536870912) : wrap30 t = (t + 1073741824, true) := by
  rw [wrap30_eq, if_neg (by omega), if_pos h]

/-- The value and the overflow of the ALU are those of `wrap30`. -/
theorem aluAdd_of_wrap30 {a b : Word} {r : Int} {v : Bool} (h : wrap30 (a.toInt + b.toInt) = (r, v)) :
    (aluAdd a b).overflow = v ∧ (aluAdd a b).sum.toInt = r := by
  refine ⟨?_, ?_⟩
  · rw [aluAdd, h]
  · rw [aluAdd_sum_toInt, h]

/-- Two data values have a sum of 31 bits. -/
theorem toInt_add_toInt_range (a b : Word) : -1073741824 ≤ a.toInt + b.toInt ∧ a.toInt + b.toInt ≤ 1073741822 := by
  have ha := a.toInt_lt
  have ha' := a.le_toInt
  have hb := b.toInt_lt
  have hb' := b.le_toInt
  omega

/-- The wrap takes or adds one multiple of 2^30. -/
theorem wrap30_emod (t : Int) : (wrap30 t).1 % 1073741824 = t % 1073741824 := by
  rw [wrap30_eq]
  split_ifs <;> dsimp only <;> omega

theorem aluAdd_comm (a b : Word) : aluAdd a b = aluAdd b a := by
  rw [aluAdd, Int.add_comm, aluAdd]

/-! ### The adder (R132) -/

/-- The exact sum is out of range exactly when two operands of one sign give a result of the other. -/
theorem aluAdd_overflow_eq (a b : Word) :
    (aluAdd a b).overflow = (a.getLsbD 29 == b.getLsbD 29 && (a + b).getLsbD 29 != a.getLsbD 29) := by
  have hmsb : ∀ x : Word, x.msb = x.getLsbD 29 := fun x => BitVec.msb_eq_getLsbD_last x
  have hsigns := BitVec.saddOverflow_eq a b
  rw [hmsb, hmsb, hmsb] at hsigns
  have hexact : (aluAdd a b).overflow = a.saddOverflow b := by
    rw [Bool.eq_iff_iff, aluAdd_overflow_iff, BitVec.saddOverflow, Bool.or_eq_true, decide_eq_true_eq,
      decide_eq_true_eq]
    omega
  exact hexact.trans hsigns

theorem aluAdd_eq_adder30 (a b : Word) : aluAdd a b = adder30 a b := by
  have hzero : (aluAdd a b).zero = (a + b == 0) := by
    rw [Bool.eq_iff_iff, aluAdd_zero_iff, aluAdd_sum, beq_iff_eq]
  calc aluAdd a b
      = ⟨(aluAdd a b).sum, (aluAdd a b).zero, (aluAdd a b).overflow⟩ := rfl
    _ = adder30 a b := by rw [aluAdd_sum, hzero, aluAdd_overflow_eq, adder30]

end Sys2Proof.Machine

namespace Sys2Proof.Claims

open Sys2Proof.Machine

/-- Settles O31: the two ALUs are one, and ADD writes its result. -/
theorem addIsTheHardwareAdder : Obligations.AddIsTheHardwareAdder := by
  refine ⟨fun a b => ⟨aluAdd_eq_adder30 a b, BitVec.toNat_add a b⟩, fun s => ?_⟩
  rw [exec_add, aluAdd_eq_adder30]
  rfl

/-- Settles O32: each range of the exact sum is one of `wrap30`. -/
theorem addLaws : Obligations.AddLaws := by
  intro a b
  obtain ⟨hlo, hhi⟩ := toInt_add_toInt_range a b
  refine ⟨fun h h' => ?_, fun h => ?_, fun h => ?_, ⟨by omega, by omega⟩, ?_, ?_, aluAdd_comm a b⟩
  · exact aluAdd_of_wrap30 (wrap30_of_inRange (by omega) (by omega))
  · obtain ⟨hv, hsum⟩ := aluAdd_of_wrap30 (wrap30_of_above (t := a.toInt + b.toInt) (by omega))
    refine ⟨hv, hsum, ?_, ?_⟩ <;> omega
  · obtain ⟨hv, hsum⟩ := aluAdd_of_wrap30 (wrap30_of_below (t := a.toInt + b.toInt) (by omega))
    refine ⟨hv, hsum, ?_, ?_⟩ <;> omega
  · rw [aluAdd_sum_toInt]
    exact decide_eq_true_iff
  · rw [aluAdd_sum_toInt]
    exact wrap30_emod _

/-- Settles O33: out of range, only the least sum of all wraps to 0. -/
theorem bothFlagsOnlyAtTheMinimum : Obligations.BothFlagsOnlyAtTheMinimum := by
  intro s t h
  rw [exec_add_next h]
  have ha := s.a.le_toInt
  have hb := s.b.le_toInt
  obtain ⟨-, hhi⟩ := toInt_add_toInt_range s.a s.b
  have hz : (aluAdd s.a s.b).zero = true ↔ (wrap30 (s.a.toInt + s.b.toInt)).1 = 0 := decide_eq_true_iff
  have hv : (aluAdd s.a s.b).overflow = (wrap30 (s.a.toInt + s.b.toInt)).2 := rfl
  simp only [State.retire_z, State.retire_v, State.advance_z, State.advance_v, State.setAlu_z, State.setAlu_v]
  rw [hz, hv, wrap30_eq]
  split_ifs <;> simp <;> omega

end Sys2Proof.Claims

/-! PROOFS. Further statements on payloads and jumps (R34, R35, R39, R123). -/

namespace Sys2Proof.Machine

/-! ### What changes a payload (R39) -/

theorem State.memRead_memWrite_other (s : State) {p q : Addr} (h : q ≠ p) (x : Word) :
    (s.memWrite p x).memRead q = s.memRead q := by
  rw [State.memRead, State.memWrite_mem, Memory.read_write_other _ h, State.memRead]

theorem State.memRead_congr {s t : State} (hmem : t.mem = s.mem) (p : Addr) : t.memRead p = s.memRead p := by
  rw [State.memRead, hmem, State.memRead]

/-- The first execution of a DEC leaves payload 0 in its own slot and every other payload alone. -/
theorem State.firstDec_memRead (s : State) (c : SymCode) (p : Addr) :
    (s.firstDec c).memRead p = if p = s.pcSlot then 0 else s.memRead p := by
  split
  · next h =>
    have hread : (s.firstDec c).mem.read s.pcSlot = withVal (withDcl (s.mem.read s.pcSlot) true) 0 :=
      Memory.read_write_same s.mem s.pcSlot _
    rw [h, State.memRead, hread, valF_withVal]
  · next h => rw [State.memRead, s.firstDec_read_other c h, State.memRead]

end Sys2Proof.Machine

namespace Sys2Proof.Claims

open Sys2Proof.Machine

/-- Settles O36. -/
theorem payloadReadAndWrite : Obligations.PayloadReadAndWrite :=
  fun s _ _ _ _ y hslot => ⟨memRead_of_slotAt hslot, State.slotAt_memWrite_same hslot y,
    fun _ hq => Memory.read_write_other s.mem hq _, rfl⟩

/-- Settles O42: the store binds nothing, so the name still leads to the slot written; and payloads change only by the
two writes of `exec_tables`. -/
theorem loadReadsTheLatestStore : Obligations.LoadReadsTheLatestStore := by
  constructor
  · intro c p s hp
    exact ⟨_, _, _, exec_st_bound hp, exec_lda_bound hp, s.memRead_memWrite_same p s.a, exec_ldb_bound hp,
      s.memRead_memWrite_same p s.a, rfl, fun q hq => s.memRead_memWrite_other hq s.a⟩
  · intro i s t p h hchanged
    rcases exec_tables h with ⟨-, hmem⟩ | ⟨c, x, rfl, -, -⟩ | ⟨c, q, rfl, hq, -, hmem⟩
    · exact absurd (State.memRead_congr hmem p) hchanged
    · rw [exec_dec_next h, s.firstDec_memRead] at hchanged ⊢
      have hp : p = s.pcSlot := by
        by_contra hne
        exact hchanged (if_neg hne)
      exact .inr ⟨c, x, rfl, hp.symm, if_pos hp⟩
    · rw [State.memRead_congr hmem] at hchanged ⊢
      have hp : p = q := by
        by_contra hne
        exact hchanged (s.memRead_memWrite_other hne s.a)
      subst hp
      exact .inl ⟨c, rfl, hq, s.memRead_memWrite_same p s.a⟩

/-- Settles O46: the jump itself checks nothing, the fetch after it does. -/
theorem jumpOutOfMemoryFaultsNext : Obligations.JumpOutOfMemoryFaultsNext := by
  intro i d s hout
  refine ⟨fun htaken => ?_, fun huntaken => ?_⟩
  · exact ⟨_, exec_of_takenJump htaken, rfl, rfl, step_of_not_pcInRange (s := (s.jump d).retire false) hout⟩
  · exact ⟨_, exec_of_untaken_jump huntaken, rfl, rfl⟩

end Sys2Proof.Claims

/-! PROOFS. Further statements on runs (R89) and on the load (R55, R61, R171). -/

namespace Sys2Proof.Machine

open Sys2Proof.Claims

/-! ### How a run ends (R89) -/

/-- A next state shows an executed instruction or a normal stop, never the code of a fault. -/
theorem step_next_report {s t : State} (h : step s = .next t) :
    (∃ diag, t.report = ranWith diag) ∨ t.report = stoppedWith .stopHalt ∨ t.report = stoppedWith .stopEmpty := by
  obtain ⟨-, ⟨-, rfl⟩ | ⟨i, -, he⟩⟩ := step_next_cases h
  · exact .inr (.inr rfl)
  · by_cases hi : i = .hlt
    · subst hi
      rw [exec_hlt] at he
      cases he
      exact .inr (.inl rfl)
    · exact .inl (exec_report hi he)

/-- A run ends in a fault, or in a normal stop that stays. -/
theorem RunsTo.end_cases {s : State} {e : RunEnd} (h : RunsTo s e) :
    (∃ f, step e.state = .fault f ∧ e.report = some ⟨f.result, false⟩) ∨
    ((e.report = stoppedWith .stopHalt ∨ e.report = stoppedWith .stopEmpty) ∧ step e.state = .next e.state) := by
  obtain ⟨t, -, hstop, rfl⟩ := h.exists_reached
  rcases step_cases_of_not_executed hstop with ⟨f, hf⟩ | ⟨r, hs, hagain⟩
  · refine .inl ⟨f, ?_, ?_⟩
    · rw [endAt, hf]
      exact hf
    · rw [endAt, hf]
      rfl
  · have hend : endAt t = ⟨(t.stop r).report, t.stop r⟩ := by
      rw [endAt, hs]
      rfl
    rw [hend]
    refine .inr ⟨?_, hagain⟩
    rcases step_next_report hs with ⟨diag, hran⟩ | hstopped
    · have he : executed (step t) = true := executed_iff.mpr ⟨diag, by rw [hs]; exact hran⟩
      rw [hstop] at he
      cases he
    · exact hstopped

/-! ### The slots of the lines (R61) -/

/-- The slots are those of the lines, in order. -/
theorem assemble_eq_ok_iff {lines : List Line} {slots : List Slot} :
    assemble lines = .ok slots ↔ List.Forall₂ (fun line slot => loadLine line = .ok slot) lines slots := by
  induction lines generalizing slots with
  | nil => simp [assemble, eq_comm]
  | cons line rest ih =>
    rw [assemble, List.forall₂_cons_left_iff]
    simp only [← ih]
    cases loadLine line <;> cases assemble rest <;> simp [eq_comm]

theorem assemble_length {lines : List Line} {slots : List Slot} (h : assemble lines = .ok slots) :
    slots.length = lines.length :=
  (assemble_eq_ok_iff.mp h).length_eq.symm

theorem assemble_getElem? {lines : List Line} {slots : List Slot} (h : assemble lines = .ok slots) {n : Nat}
    {line : Line} (hline : lines[n]? = some line) : ∃ slot, loadLine line = .ok slot ∧ slots[n]? = some slot := by
  obtain ⟨hlen, hall⟩ := List.forall₂_iff_get.mp (assemble_eq_ok_iff.mp h)
  obtain ⟨hn, rfl⟩ := List.getElem?_eq_some_iff.mp hline
  exact ⟨slots[n], hall n hn (hlen ▸ hn), List.getElem?_eq_getElem _⟩

/-- What the fill leaves at each address from its start on. -/
theorem Memory.read_fill (m : Memory) (p : Nat) (slots : List Slot) (hp : p + slots.length ≤ 256) (n : Nat) (q : Addr)
    (hq : q.toNat = p + n) : (m.fill p slots).read q = (slots[n]?.map encodeSlot).getD (m.read q) := by
  induction slots generalizing m p n with
  | nil => rfl
  | cons slot rest ih =>
    rw [List.length_cons] at hp
    rw [Memory.fill]
    cases n with
    | zero =>
      have hown : q = BitVec.ofNat 8 p := BitVec.eq_of_toNat_eq (by rw [BitVec.toNat_ofNat]; omega)
      rw [Memory.read_fill_below _ _ _ _ (by omega) (by omega), hown, Memory.read_write_same]
      rfl
    | succ n =>
      have hother : q ≠ BitVec.ofNat 8 p := by
        rintro rfl
        rw [BitVec.toNat_ofNat] at hq
        omega
      rw [ih _ (p + 1) (by omega) n (by omega), Memory.read_write_other _ hother, List.getElem?_cons_succ]

/-- The slot at each address after a load is that of its line, if there is one. -/
theorem State.load_slotAt {s t : State} {lines : List Line} (h : s.load lines = .next t) (p : Addr) :
    (∀ line, lines[p.toNat]? = some line → ∃ slot, loadLine line = .ok slot ∧ t.slotAt p = .ok slot) ∧
    (lines[p.toNat]? = none → t.slotAt p = .ok .empty) := by
  obtain ⟨slots, hslots, rfl⟩ := State.load_next h
  have hn : Config.nSlots = 256 := rfl
  rw [hn] at hslots
  have hlen : slots.length ≤ 256 := (assemble_length hslots).trans_le (List.length_take_le _ _)
  have htake : (lines.take 256)[p.toNat]? = lines[p.toNat]? := List.getElem?_take_of_lt p.isLt
  have hread := Memory.read_fill [] 0 slots (by omega) p.toNat p (by omega)
  refine ⟨fun line hline => ?_, fun hnone => ?_⟩
  · obtain ⟨slot, hload, hslot⟩ := assemble_getElem? hslots (htake.trans hline)
    refine ⟨slot, hload, ?_⟩
    rw [State.slotAt, hread, hslot]
    exact decodeSlot_encodeSlot slot
  · have hpast : slots[p.toNat]? = none := by
      rw [List.getElem?_eq_none_iff, assemble_length hslots, ← List.getElem?_eq_none_iff, htake, hnone]
    rw [State.slotAt, hread, hpast]
    exact decodeSlot_encodeSlot .empty

end Sys2Proof.Machine

namespace Sys2Proof.Claims

open Sys2Proof.Machine

/-! ### The lines without a keyword (R55) -/

theorem withInt_ne_empty (operand : Option (List Byte)) (mk : Word → Instr) : withInt operand mk ≠ .ok .empty := by
  intro h
  cases hop : intOperand operand with
  | ok x => simp [withInt_of_ok mk hop] at h
  | error r => simp [withInt_of_error mk hop] at h

/-! The three keywords without operand. -/

theorem slotOfTokens_xch (operand : Option (List Byte)) : slotOfTokens (ascii "XCH") operand = .ok (.instr .xch) := rfl
theorem slotOfTokens_add (operand : Option (List Byte)) : slotOfTokens (ascii "ADD") operand = .ok (.instr .add) := rfl
theorem slotOfTokens_hlt (operand : Option (List Byte)) : slotOfTokens (ascii "HLT") operand = .ok (.instr .hlt) := rfl

/-- A keyword gives an instruction or a refusal (R55, R58). -/
theorem slotOfTokens_ne_empty {keyword : List Byte} (h : keyword ∈ keywords) (operand : Option (List Byte)) :
    slotOfTokens keyword operand ≠ .ok .empty := by
  simp only [keywords, List.mem_cons, List.not_mem_nil, or_false] at h
  rcases h with rfl | rfl | rfl | rfl | rfl | rfl | rfl | rfl | rfl | rfl | rfl
  · simp [slotOfTokens_dec]
  · simp [slotOfTokens_lda]
  · simp [slotOfTokens_ldb]
  · exact withInt_ne_empty operand .ldi
  · simp [slotOfTokens_st]
  · simp [slotOfTokens_xch]
  · exact withInt_ne_empty operand .jmp
  · exact withInt_ne_empty operand .jzs
  · exact withInt_ne_empty operand .jvs
  · simp [slotOfTokens_add]
  · simp [slotOfTokens_hlt]

theorem slotOfTokens_of_not_keyword {keyword : List Byte} (h : keyword ∉ keywords) (operand : Option (List Byte)) :
    slotOfTokens keyword operand = .ok .empty := by
  simp only [keywords, List.mem_cons, List.not_mem_nil, or_false, not_or] at h
  obtain ⟨hdec, hlda, hldb, hldi, hst, hxch, hjmp, hjzs, hjvs, hadd, hhlt⟩ := h
  rw [slotOfTokens, if_neg hdec, if_neg hlda, if_neg hldb, if_neg hldi, if_neg hst, if_neg hxch, if_neg hjmp,
    if_neg hjzs, if_neg hjvs, if_neg hadd, if_neg hhlt]

theorem slotOfTokens_eq_empty_iff {keyword : List Byte} {operand : Option (List Byte)} :
    slotOfTokens keyword operand = .ok .empty ↔ keyword ∉ keywords :=
  ⟨fun h hk => slotOfTokens_ne_empty hk operand h, fun h => slotOfTokens_of_not_keyword h operand⟩

theorem loadLine_eq_empty_iff {line : Line} :
    loadLine line = .ok .empty ↔ ∀ keyword rest, tokens line = keyword :: rest → keyword ∉ keywords := by
  unfold loadLine
  split
  · next h => simp [h]
  · next keyword rest h => simp [h, slotOfTokens_eq_empty_iff]

/-- Settles O49: the two ends exclude each other by their reports. -/
theorem runEndIsStopOrFault : Obligations.RunEndIsStopOrFault := by
  intro s e hrun
  rcases hrun.end_cases with ⟨f, hf, hreport⟩ | ⟨hreport, hstays⟩
  · have hnormal : e.normal = false := by
      rw [RunEnd.normal, hreport]
      cases f <;> rfl
    refine ⟨iff_of_false (by simp [hnormal]) ?_, fun h => ?_, fun _ => ⟨f, hf, hreport⟩⟩
    · rw [hreport]
      cases f <;> simp [stoppedWith, Fault.result]
    · rw [hnormal] at h
      cases h
  · have hnormal : e.normal = true := by
      rw [RunEnd.normal]
      rcases hreport with h | h <;> rw [h] <;> rfl
    refine ⟨iff_of_true hnormal hreport, fun _ => hstays, fun h => ?_⟩
    rw [hnormal] at h
    cases h

/-- Settles O50: every value of the reset state is written out in its definition. -/
theorem powerOnIsTheEmptyLoad : Obligations.PowerOnIsTheEmptyLoad :=
  ⟨rfl, rfl, rfl, rfl, rfl, fun _ => decodeSlot_encodeSlot .empty, SymbolTable.lookup_nil,
    fun s => s.load_eq_load_reset [], step_of_empty (by decide) (decodeSlot_encodeSlot .empty)⟩

/-- Settles O52: the first 256 lines alone are examined, and the fill places their slots in order. -/
theorem loadFillsMemoryFromLines : Obligations.LoadFillsMemoryFromLines := by
  refine ⟨fun s t lines h p => State.load_slotAt h p, fun s lines more hlen => ?_, fun s lines hall => ?_⟩
  · have htake : (lines ++ more).take Config.nSlots = lines.take Config.nSlots := List.take_append_of_le_length hlen.ge
    rw [State.load, htake, State.load]
  · cases hload : s.load lines with
    | next t => exact ⟨t, rfl⟩
    | fault f =>
      rw [State.load] at hload
      split at hload <;> cases hload
    | refused r =>
      obtain ⟨line, hline, r', hr'⟩ := assemble_error_iff.mp ((s.load_refused_iff lines).mp ⟨r, hload⟩)
      obtain ⟨slot, hslot⟩ := hall line hline
      rw [hslot] at hr'
      cases hr'

/-- Settles O54: the keywords by the line's first token, the addresses by the load's slots. -/
theorem unrecognisedLineIsAnEmptySlot : Obligations.UnrecognisedLineIsAnEmptySlot := by
  refine ⟨fun line => loadLine_eq_empty_iff, fun s t before after line next hlen hempty hload => ?_⟩
  have haddr : ∀ n, n < 256 → (BitVec.ofNat 8 n).toNat = n := fun n hn => by
    rw [BitVec.toNat_ofNat]
    omega
  obtain ⟨hown, -⟩ := State.load_slotAt hload (BitVec.ofNat 8 before.length)
  obtain ⟨hnext, -⟩ := State.load_slotAt hload (BitVec.ofNat 8 (before.length + 1))
  rw [haddr _ (by omega)] at hown hnext
  obtain ⟨slot, hslot, hat⟩ := hown line (by simp)
  rw [hempty] at hslot
  cases hslot
  exact ⟨hat, hnext next (by simp)⟩

end Sys2Proof.Claims

/-! PROOFS. The control state machine (R90, R91): a step, a run and a load through the ports. -/

namespace Sys2Proof.Machine

open Sys2Proof.Claims

/-! ### Lists of clock edges -/

/-- An edge without a `done` pulse. -/
theorem Chip.clocks_cons_of_quiet {c c' : Chip} {i : PortsIn} (h : c.edge i = (c', none)) (rest : List PortsIn) :
    c.clocks (i :: rest) = c'.clocks rest := by
  rw [Chip.clocks, h]
  rfl

/-- The edge that finishes a step. -/
theorem Chip.clocks_of_finish {c : Chip} {i : PortsIn} {s : State} {o : Host.Outcome State Fault Refusal}
    (h : c.edge i = Chip.finish s o) : c.clocks [i] = (Chip.mk (stateAfter s o) .idle, pulse (reportOf o)) := by
  rw [Chip.clocks, h]
  exact congrArg (Prod.mk _) (List.append_nil _)

theorem Chip.clocks_append_of_quiet {c c' : Chip} {edges : List PortsIn} (h : c.clocks edges = (c', []))
    (rest : List PortsIn) : c.clocks (edges ++ rest) = c'.clocks rest := by
  induction edges generalizing c with
  | nil =>
    cases h
    rfl
  | cons i edges ih =>
    rw [Chip.clocks] at h
    injection h with hchip hpulses
    obtain ⟨hquiet, hrest⟩ := List.append_eq_nil_iff.mp hpulses
    rw [List.cons_append, Chip.clocks, ih (Prod.ext hchip hrest), hquiet]
    rfl

/-! ### One edge in each control state (R91) -/

theorem Chip.edge_idle_step {s : State} {i : PortsIn} (hload : i.load = false) (hstep : i.stepReq = true)
    (hrun : i.runReq = false) : (Chip.mk s .idle).edge i = (Chip.mk s (.fetch false), none) := by
  simp [Chip.edge, requested, hload, hstep, hrun]

theorem Chip.edge_idle_run {s : State} {i : PortsIn} (hload : i.load = false) (hrun : i.runReq = true)
    (hstep : i.stepReq = false) : (Chip.mk s .idle).edge i = (Chip.mk s (.fetch true), none) := by
  simp [Chip.edge, requested, hload, hstep, hrun]

section Fetch

variable {s : State} {run : Bool} {i : PortsIn} (hload : (run && i.load) = false)
include hload

/-- FETCH finishes a step that does not execute. -/
theorem Chip.edge_fetch_of_not_executed (h : executed (step s) = false) :
    (Chip.mk s (.fetch run)).edge i = Chip.finish s (step s) := by
  simp only [Chip.edge, hload, Bool.false_eq_true, if_false]
  rcases s.fetch_cases with ⟨-, hf⟩ | ⟨-, -, hf⟩ | ⟨-, -, hf⟩ | ⟨j, hr, hj, hf⟩
  · simp only [step, hf]
  · simp only [step, hf]
  · simp only [step, hf]
  · have hhlt : j = .hlt := by
      by_contra hne
      obtain ⟨t, ht⟩ := exec_total hr j
      have he : executed (.next t) = true := executed_iff.mpr (exec_report hne ht)
      rw [step_of_instr hr hj, ht, he] at h
      cases h
    subst hhlt
    simp only [step, hf]

/-- FETCH hands every other step's instruction to EXECUTE. -/
theorem Chip.edge_fetch_of_executed (h : executed (step s) = true) :
    ∃ j, (Chip.mk s (.fetch run)).edge i = (Chip.mk s (.execute run j), none) ∧ exec j s = step s := by
  simp only [Chip.edge, hload, Bool.false_eq_true, if_false]
  obtain ⟨t, ht⟩ := exists_next_of_executed h
  rcases s.fetch_cases with ⟨hr, -⟩ | ⟨hr, ⟨e, he⟩, -⟩ | ⟨hr, hempty, -⟩ | ⟨j, hr, hj, hf⟩
  · rw [step_of_not_pcInRange hr] at h
    cases h
  · rw [step_of_illegal hr he] at h
    cases h
  · rw [step_of_empty hr hempty] at h
    cases h
  · refine ⟨j, ?_, (step_of_instr hr hj).symm⟩
    rw [hf]
    cases j with
    | hlt =>
      rw [step_of_hlt hr hj] at h
      cases h
    | dec _ _ _ | lda _ | ldb _ | ldi _ | st _ | xch | jmp _ | jzs _ | jvs _ | add => rfl

end Fetch

/-- EXECUTE finishes a single step. -/
theorem Chip.edge_execute_single {s : State} {j : Instr} (i : PortsIn) :
    (Chip.mk s (.execute false j)).edge i = Chip.finish s (exec j s) := rfl

/-- EXECUTE goes back to FETCH in a run. -/
theorem Chip.edge_execute_run {s t : State} {j : Instr} (i : PortsIn) (h : exec j s = .next t)
    (he : executed (exec j s) = true) :
    (Chip.mk s (.execute true j)).edge i = (Chip.mk t (.fetch true), none) := by
  simp only [Chip.edge, he, Bool.and_self, if_true]
  rw [h]
  rfl

/-! ### A run (R86, R91) -/

/-- An executed step of a run takes two edges and gives no pulse. -/
theorem Chip.clocks_run_step {s t : State} {i j : PortsIn} (hload : i.load = false) (h : step s = .next t)
    (he : executed (step s) = true) (rest : List PortsIn) :
    (Chip.mk s (.fetch true)).clocks (i :: j :: rest) = (Chip.mk t (.fetch true)).clocks rest := by
  obtain ⟨k, hedge, hk⟩ := Chip.edge_fetch_of_executed (run := true) hload he
  rw [Chip.clocks_cons_of_quiet hedge, Chip.clocks_cons_of_quiet (Chip.edge_execute_run j (hk.trans h) (hk ▸ he))]

/-- A run that ends takes a number of edges that its start alone fixes: two for each executed step and one for the
last. -/
theorem Chip.clocks_run {fuel : Nat} {s : State} {e : RunEnd} (h : runFor fuel s = some e) :
    ∃ n, ∀ rest : List PortsIn, rest.length = n → (∀ i ∈ rest, i.load = false) →
      (Chip.mk s (.fetch true)).clocks rest = (Chip.mk e.state .idle, pulse e.report) := by
  induction fuel generalizing s with
  | zero => cases h
  | succ fuel ih =>
    cases he : executed (step s) with
    | false =>
      rw [runFor_succ_of_not_executed fuel he] at h
      cases h
      refine ⟨1, fun rest hlen hlow => ?_⟩
      obtain ⟨i, rfl⟩ := List.length_eq_one_iff.mp hlen
      exact Chip.clocks_of_finish (Chip.edge_fetch_of_not_executed (run := true) (hlow i List.mem_cons_self) he)
    | true =>
      obtain ⟨t, ht⟩ := exists_next_of_executed he
      rw [runFor_succ_of_executed fuel ht he] at h
      obtain ⟨n, hn⟩ := ih h
      refine ⟨n + 2, fun rest hlen hlow => ?_⟩
      match rest, hlen, hlow with
      | i :: j :: rest, hlen, hlow =>
        obtain ⟨hi, htail⟩ := List.forall_mem_cons.mp hlow
        obtain ⟨-, hrest⟩ := List.forall_mem_cons.mp htail
        rw [Chip.clocks_run_step hi ht he]
        exact hn rest (by simpa using hlen) hrest

theorem RunsForever.executed {s : State} (h : RunsForever s) : executed (step s) = true := by
  by_contra he
  have hend := h 1
  rw [runFor_succ_of_not_executed 0 (by simpa using he)] at hend
  cases hend

theorem RunsForever.step {s t : State} (h : RunsForever s) (hs : step s = .next t) : RunsForever t := fun fuel => by
  rw [← runFor_succ_of_executed fuel hs h.executed]
  exact h (fuel + 1)

/-- A run that does not end gives no pulse, whether the edges stop at a FETCH or at an EXECUTE. -/
theorem RunsForever.no_pulse : ∀ {s : State} (rest : List PortsIn), RunsForever s → (∀ i ∈ rest, i.load = false) →
    ((Chip.mk s (.fetch true)).clocks rest).2 = []
  | _, [], _, _ => rfl
  | s, [i], h, hlow => by
    obtain ⟨j, hedge, -⟩ := Chip.edge_fetch_of_executed (run := true) (hlow i List.mem_cons_self) h.executed
    rw [Chip.clocks_cons_of_quiet hedge]
    rfl
  | s, i :: j :: rest, h, hlow => by
    obtain ⟨t, ht⟩ := exists_next_of_executed h.executed
    obtain ⟨hi, htail⟩ := List.forall_mem_cons.mp hlow
    obtain ⟨-, hrest⟩ := List.forall_mem_cons.mp htail
    rw [Chip.clocks_run_step hi ht h.executed]
    exact RunsForever.no_pulse rest (h.step ht) hrest

/-! ### A load (R90) -/

/-- The chip in LOAD with memory `m`, everything else in reset. -/
def Chip.inLoad (m : Memory) : Chip := Chip.mk { State.reset with mem := m } .load

/-- What one edge with `load` high leaves of memory. -/
theorem portImage_cons (m : Memory) (i : PortsIn) (edges : List PortsIn) :
    portImage m (i :: edges) = portImage (if i.ldWe then m.write i.ldAddr i.ldData else m) edges := rfl

/-- Loading keeps nothing of the state but memory. -/
theorem Chip.loading_eq (s : State) (i : PortsIn) : Chip.loading s i = Chip.inLoad (portImage s.mem [i]) := by
  rw [portImage_cons, Chip.loading]
  cases i.ldWe <;> rfl

theorem Chip.edge_inLoad_high (m : Memory) {i : PortsIn} (h : i.load = true) :
    (Chip.inLoad m).edge i = (Chip.inLoad (portImage m [i]), none) := by
  simp only [Chip.edge, Chip.inLoad, h, if_true, Chip.loading_eq]

theorem Chip.edge_inLoad_low (m : Memory) {i : PortsIn} (h : i.load = false) :
    (Chip.inLoad m).edge i = (Chip.mk { State.reset with mem := m } .idle, none) := by
  simp only [Chip.edge, Chip.inLoad, h, Bool.false_eq_true, if_false]

/-- `load` is sampled in IDLE and at the FETCH of a run; memory starts empty. -/
theorem Chip.edge_load {s : State} {ctl : Control} {i : PortsIn} (hctl : ctl = .idle ∨ ctl = .fetch true)
    (h : i.load = true) : (Chip.mk s ctl).edge i = (Chip.inLoad (portImage [] [i]), none) := by
  rcases hctl with rfl | rfl <;> simp [Chip.edge, h, Chip.loading_eq]

theorem Chip.clocks_inLoad (m : Memory) {edges : List PortsIn} (h : ∀ i ∈ edges, i.load = true) :
    (Chip.inLoad m).clocks edges = (Chip.inLoad (portImage m edges), []) := by
  induction edges generalizing m with
  | nil => rfl
  | cons i edges ih =>
    obtain ⟨hi, hedges⟩ := List.forall_mem_cons.mp h
    rw [Chip.clocks_cons_of_quiet (Chip.edge_inLoad_high m hi), ih _ hedges]
    rfl

/-- When `load` goes low the core waits in IDLE with the image. -/
theorem Chip.clocks_inLoad_low (m : Memory) {low : PortsIn} (h : low.load = false) :
    (Chip.inLoad m).clocks [low] = (Chip.mk { State.reset with mem := m } .idle, []) := by
  rw [Chip.clocks_cons_of_quiet (Chip.edge_inLoad_low m h)]
  rfl

end Sys2Proof.Machine

namespace Sys2Proof.Claims

open Sys2Proof.Machine

/-- Settles O58: FETCH finishes a step that does not execute, EXECUTE one that does. -/
theorem controlServesAStep : Obligations.ControlServesAStep := by
  intro s i₁ i₂ i₃ hload hstep hrun
  have hidle := Chip.edge_idle_step (s := s) hload hstep hrun
  cases he : executed (step s) with
  | false =>
    rw [if_neg Bool.false_ne_true, Chip.clocks_cons_of_quiet hidle]
    exact Chip.clocks_of_finish (Chip.edge_fetch_of_not_executed (run := false) rfl he)
  | true =>
    obtain ⟨j, hfetch, hj⟩ := Chip.edge_fetch_of_executed (run := false) (i := i₂) rfl he
    rw [if_pos rfl, Chip.clocks_cons_of_quiet hidle, Chip.clocks_cons_of_quiet hfetch, ← hj]
    exact Chip.clocks_of_finish (Chip.edge_execute_single i₃)

/-- Settles O59: after the edge in IDLE the chip is at the FETCH of a run. -/
theorem controlServesARun : Obligations.ControlServesARun := by
  intro s i₁ hload hrun hstep
  have hidle := Chip.edge_idle_run (s := s) hload hrun hstep
  refine ⟨fun e ⟨fuel, hfuel⟩ => ?_, fun h rest hlow => ?_⟩
  · obtain ⟨n, hn⟩ := Chip.clocks_run hfuel
    refine ⟨n, fun rest hlen hlow => ?_⟩
    rw [Chip.clocks_cons_of_quiet hidle]
    exact hn rest hlen hlow
  · rw [Chip.clocks_cons_of_quiet hidle]
    exact h.no_pulse rest hlow

/-- Settles O60: the first edge enters LOAD with an empty memory, and every further one writes at most one word. -/
theorem controlLoads : Obligations.ControlLoads := by
  refine ⟨fun s ctl first low rest hctl hfirst hrest hlow => ?_, fun m low edges hedges hlow => ?_,
    fun low hlow => Chip.clocks_inLoad_low [] hlow⟩
  · have hhigh : (Chip.mk s ctl).clocks (first :: rest) = (Chip.inLoad (portImage [] (first :: rest)), []) := by
      rw [Chip.clocks_cons_of_quiet (Chip.edge_load hctl hfirst), Chip.clocks_inLoad _ hrest]
      rfl
    exact ⟨hhigh, (Chip.clocks_append_of_quiet hhigh [low]).trans (Chip.clocks_inLoad_low _ hlow)⟩
  · have hhigh := Chip.clocks_inLoad m hedges
    exact ⟨hhigh, (Chip.clocks_append_of_quiet hhigh [low]).trans (Chip.clocks_inLoad_low _ hlow)⟩

end Sys2Proof.Claims
